-- ==== Sys2Proof/Word.lean ====
section
/-! DEFINITION. Word.lean: the widths of the machine's words (00_scope.md R9, 10_state.md R15, R16, 30_encoding.md R59). -/

namespace Sys2Proof

/-- A byte, the addressable unit (20_memory.md R36). -/
abbrev Byte := BitVec 8

/-- An instruction word: every instruction is one 32-bit word (30_encoding.md R59, R70). -/
abbrev Word := BitVec 32

/-- A 64-bit value: a general register, the program counter (10_state.md R15, R16). -/
abbrev DWord := BitVec 64

/-- An instruction address: a multiple of 4 (10_state.md R16, 20_memory.md R39). -/
abbrev aligned4 (a : DWord) : Bool := a.extractLsb' 0 2 == 0

end Sys2Proof
end

