-- ==== Sys2Proof/Config.lean ====
section
/-! DEFINITION. Config.lean: what an implementation fixes (00_scope.md R3, R7, R8) and the free value of the exception
syndrome. No step changes a `Config`. -/

namespace Sys2Proof

/-- The Exception levels (10_state.md R17, 60_exceptions.md R92). -/
inductive EL where
  | el0 | el1 | el2 | el3
deriving DecidableEq, Repr, Inhabited

/-- The 2-bit number of an Exception level (10_state.md R17). PRESUMED (GK5). -/
def EL.toNat : EL → Nat
  | .el0 => 0
  | .el1 => 1
  | .el2 => 2
  | .el3 => 3

/-- The Security states (10_state.md R26). PRESUMED: the names NonSecure and Realm (GK11). -/
inductive SecurityState where
  | secure | nonSecure | realm
deriving DecidableEq, Repr, Inhabited

/-- An agent that holds a TLB (10_state.md R14): PE number `n` or System MMU number `n`. -/
inductive AgentId where
  | pe (n : Nat)
  | smmu (n : Nat)
deriving DecidableEq, Repr, Inhabited

/-- What an implementation fixes about one PE `p`: `Config.ISH(p)`, the agents in its Inner Shareable shareability
domain (00_scope.md R8, 20_memory.md R51). The PE itself is a member whether or not it is listed (`Config.inIsh`). -/
structure PeConfig where
  ish : List AgentId
deriving DecidableEq, Repr, Inhabited

/-- The record `Config` of 00_scope.md R8. The spec fixes no value of it and no dependency between features. -/
structure Config where
  /-- EL2 is implemented. -/
  haveEL2 : Bool
  /-- EL3 is implemented: `HaveEL(EL3)`. -/
  haveEL3 : Bool
  /-- The nXS variant exists; the `HCRX_EL2.FnXS` override. -/
  featXS : Bool
  /-- `HCRX_EL2` exists. -/
  featHCX : Bool
  /-- The fine-grained trap `HFGITR_EL2.TLBIVALE1IS`. -/
  featFGT : Bool
  /-- The TTL field of the operand is a level hint. -/
  featTTL : Bool
  /-- Level 0 of the 4KB granule and level 1 of the 16KB granule are TTL values. -/
  featLPA2 : Bool
  /-- 128-bit stage 1 translation table entries exist. -/
  featD128 : Bool
  /-- The Security state is `SCR_EL3.{NSE, NS}`, not `SCR_EL3.NS` alone. -/
  featRME : Bool
  /-- The implementation is "From Armv8.4": the Note of 20_memory.md R52 applies (D28). -/
  secureEL2Note : Bool
  /-- The implementation supports 16 bits of ASID. -/
  asid16 : Bool
  /-- The PEs, number 0 first, with their shareability domains. -/
  pes : List PeConfig
  /-- How many System MMUs there are. -/
  smmuCount : Nat
  /-- The Security state of EL0 to EL2 when EL3 is not implemented (D14). -/
  securityStateNoEL3 : SecurityState
  /-- `CompletionPoint` (20_memory.md R49, D7): the instruction addresses at which a turn of a PE waits while a TLBI of
  its own is pending. DESIGN CHOICE, log 29: it holds back turns only. A move `software` or `exceptionReturn`, one that
  stands for a `DSB` among them, can take the PE to or past such an address with an operation pending (log 27), so a claim
  that rests on the parameter (70_reset_and_hazards.md R98) also bounds those moves. Empty: nothing is guaranteed. -/
  completionPoint : List DWord
  /-- The platform's address map as (base, size) pairs; no rule reads it (20_memory.md R54, D6). -/
  addressMap : List (Nat × Nat)
  /-- `ResetPC`: the entry point after reset (70_reset_and_hazards.md R95, D19). -/
  resetPC : DWord
deriving DecidableEq, Repr, Inhabited

namespace Config

/-- `Config.Agents`: every agent that holds a TLB (10_state.md R14). -/
def agents (cfg : Config) : List AgentId :=
  (List.range cfg.pes.length).map AgentId.pe ++ (List.range cfg.smmuCount).map AgentId.smmu

/-- `a` is in `ISH(p)`: "the agents in the same Inner Shareable shareability domain", `p` itself included
(00_scope.md R8, 20_memory.md R51). -/
def inIsh (cfg : Config) (p : Nat) (a : AgentId) : Bool :=
  a == .pe p || (cfg.pes.getD p default).ish.contains a

/-- The configuration that `State.reset` stands for: every feature, EL2 and EL3, one PE, no System MMU, no address
named as a completion point. DESIGN CHOICE, log 1: the spec fixes no configuration (00_scope.md R7). -/
def atReset : Config where
  haveEL2 := true
  haveEL3 := true
  featXS := true
  featHCX := true
  featFGT := true
  featTTL := true
  featLPA2 := true
  featD128 := true
  featRME := true
  secureEL2Note := true
  asid16 := true
  pes := [⟨[.pe 0]⟩]
  smmuCount := 0
  securityStateNoEL3 := .nonSecure
  completionPoint := []
  addressMap := []
  resetPC := 0

/-- The FREE VALUE of the IL bit in the syndrome of an Undefined exception: the spec states that the class is 0x00 and
that the syndrome carries no information about the instruction (60_exceptions.md R84), and does not state this bit.
No body: nothing is known of it. `State.freeCount` is its argument, and each use advances it (log 14). -/
opaque undefinedIL : Nat → BitVec 1

end Config

end Sys2Proof
end

