-- ==== Sys2Proof/Syntax.lean ====
section
/-! DEFINITION. Syntax.lean: the two instructions, the five-field tuple that identifies them, and the reasons a decoder
rejects a word (30_encoding.md R56 to R60, R69, R71). -/

namespace Sys2Proof

/-- The instructions of spec/opcode_table.json. `t` is the number of the register `<Xt>`, 0 to 31 (30_encoding.md R60);
31 is the zero register and the encoding of an omitted operand. -/
inductive Instr where
  /-- `TLBI VALE1IS{, <Xt>}` (30_encoding.md R57, meaning 40_tlbi_vale1is.md R81). -/
  | tlbiVale1is (t : Nat)
  /-- `TLBI VALE1ISNXS{, <Xt>}` (30_encoding.md R58, meaning 40_tlbi_vale1is.md R82). -/
  | tlbiVale1isnxs (t : Nat)
deriving DecidableEq, Repr, Inhabited

/-- The register number carried in the field `Rt` (30_encoding.md R60). -/
def Instr.rt : Instr → Nat
  | .tlbiVale1is t => t
  | .tlbiVale1isnxs t => t

/-- The register number of a written operand: `{, <Xt>}` may be left out, and is then encoded as 31
(30_encoding.md R60). PRESUMED (GK22, D3), log 7. -/
def Instr.operandNumber : Option Nat → Nat
  | some t => t
  | none => 31

/-- The name of register number `t` in the assembler: `X0` to `X30`, `XZR` for 31 (30_encoding.md R69). PRESUMED (GK25),
log 7. -/
def registerName (t : Nat) : String := if t = 31 then "XZR" else "X" ++ toString t

/-- The assembler text of an instruction, its operand written out (30_encoding.md R69). -/
def Instr.asm : Instr → String
  | .tlbiVale1is t => "TLBI VALE1IS, " ++ registerName t
  | .tlbiVale1isnxs t => "TLBI VALE1ISNXS, " ++ registerName t

/-- A point of "the System instruction encoding space" with the register number beside it (30_encoding.md R56, R60). -/
structure SysFields where
  op0 : BitVec 2
  op1 : BitVec 3
  crn : BitVec 4
  crm : BitVec 4
  op2 : BitVec 3
  rt  : BitVec 5
deriving DecidableEq, Repr, Inhabited

/-- Why a decoder finds none of the two instructions: "not in this spec" (30_encoding.md R71), by the first field that
differs from both encodings. -/
inductive DecodeReject where
  /-- Fewer than four bytes stand there. -/
  | truncated
  /-- Bits [31:22] are not `0b1101010100` (30_encoding.md R59). -/
  | notSystem
  /-- `L = 1`: a System instruction that returns a value (30_encoding.md R59). -/
  | returnsValue
  /-- `op0` is not `0b01`. -/
  | op0
  /-- `op1` is not `0b000`. -/
  | op1
  /-- `CRn` is neither `0b1000` nor `0b1001`. -/
  | crn
  /-- `CRm` is not `0b0011`. -/
  | crm
  /-- `op2` is not `0b101`. -/
  | op2
deriving DecidableEq, Repr, Inhabited

end Sys2Proof
end

