-- ==== Sys2Proof/WellFormed.lean ====
section
/-! DEFINITION. WellFormed.lean: the checks on an instruction and on a configuration. -/

namespace Sys2Proof

/-- The register number of an instruction fits the field `Rt`: 0 to 31 (30_encoding.md R60). -/
def Instr.wf (i : Instr) : Bool := decide (i.rt < 32)

/-- An agent of the configuration (00_scope.md R8). -/
def Config.hasAgent (cfg : Config) : AgentId → Bool
  | .pe n => decide (n < cfg.pes.length)
  | .smmu n => decide (n < cfg.smmuCount)

/-- A configuration a machine can have: there is a PE to execute instructions, every shareability domain holds agents of
the configuration only, and the entry point after reset is an instruction address (10_state.md R14, R16, 00_scope.md R8).
The model's own predicate, as 00_scope.md R8 allows. -/
def Config.wf (cfg : Config) : Bool :=
  decide (0 < cfg.pes.length)
    && cfg.pes.all (fun p => p.ish.all cfg.hasAgent)
    && aligned4 cfg.resetPC

end Sys2Proof
end

