-- ==== Sys2Proof/Decode.lean ====
section
/-! DEFINITION. Decode.lean: from bytes to an instruction or a named rejection, and the encoder (30_encoding.md R56 to
R60, R70, R71). The word layout is PRESUMED (GK21, D1), log 9; the byte order is PRESUMED (GK16, D4), log 10. -/

namespace Sys2Proof

/-- Bits [31:22] of a System instruction word (30_encoding.md R59). -/
def sysOpcode : BitVec 10 := 0b1101010100#10

/-- The point of the encoding space that a 32-bit word names (30_encoding.md R59): `op0` [20:19], `op1` [18:16],
`CRn` [15:12], `CRm` [11:8], `op2` [7:5], `Rt` [4:0]. -/
def fieldsOfWord (w : Word) : SysFields where
  op0 := w.extractLsb' 19 2
  op1 := w.extractLsb' 16 3
  crn := w.extractLsb' 12 4
  crm := w.extractLsb' 8 4
  op2 := w.extractLsb' 5 3
  rt  := w.extractLsb' 0 5

/-- The 32-bit word of a point of the encoding space, with `L = 0` (30_encoding.md R59). -/
def wordOfFields (f : SysFields) : Word :=
  sysOpcode ++ (0#1 ++ (f.op0 ++ (f.op1 ++ (f.crn ++ (f.crm ++ (f.op2 ++ f.rt))))))

/-- Decoding at the level of the five-field tuple (30_encoding.md R57, R58, R71). The nXS encoding decodes whether or not
FEAT_XS is implemented. -/
def decodeFields (f : SysFields) : Except DecodeReject Instr :=
  if f.op0 ≠ 0b01#2 then .error .op0
  else if f.op1 ≠ 0b000#3 then .error .op1
  else if f.crm ≠ 0b0011#4 then .error .crm
  else if f.op2 ≠ 0b101#3 then .error .op2
  else if f.crn = 0b1000#4 then .ok (.tlbiVale1is f.rt.toNat)
  else if f.crn = 0b1001#4 then .ok (.tlbiVale1isnxs f.rt.toNat)
  else .error .crn

/-- Decoding one 32-bit word (30_encoding.md R59, R71). -/
def decodeWord (w : Word) : Except DecodeReject Instr :=
  if w.extractLsb' 22 10 ≠ sysOpcode then .error .notSystem
  else if w.extractLsb' 21 1 ≠ 0#1 then .error .returnsValue
  else decodeFields (fieldsOfWord w)

/-- The 32-bit word whose bytes these are, least significant byte at the lowest address (20_memory.md R38). -/
def wordOfBytes (b0 b1 b2 b3 : Byte) : Word := b3 ++ (b2 ++ (b1 ++ b0))

/-- The four bytes of a word, the one at the lowest address first (20_memory.md R38). -/
def bytesOfWord (w : Word) : List Byte :=
  [w.extractLsb' 0 8, w.extractLsb' 8 8, w.extractLsb' 16 8, w.extractLsb' 24 8]

/-- Decoding the instruction at the head of a list of bytes: every instruction is four bytes (30_encoding.md R70). -/
def decodeBytes : List Byte → Except DecodeReject Instr
  | b0 :: b1 :: b2 :: b3 :: _ => decodeWord (wordOfBytes b0 b1 b2 b3)
  | _ => .error .truncated

/-- The five-field tuple and register number of an instruction (30_encoding.md R57, R58, R60). -/
def Instr.fields : Instr → SysFields
  | .tlbiVale1is t => { op0 := 0b01, op1 := 0b000, crn := 0b1000, crm := 0b0011, op2 := 0b101, rt := BitVec.ofNat 5 t }
  | .tlbiVale1isnxs t => { op0 := 0b01, op1 := 0b000, crn := 0b1001, crm := 0b0011, op2 := 0b101, rt := BitVec.ofNat 5 t }

/-- The word of an instruction (30_encoding.md R57 to R59). -/
def encode (i : Instr) : Word := wordOfFields i.fields

/-- The 32-bit word that an opcode-table row's `nbits` bits `w` stand for: the bits above `nbits` are 0. -/
def tableWord (nbits w : Nat) : Word := BitVec.ofNat 32 (w % 2 ^ nbits)

/-- The instruction the decoder reads from a row of spec/opcode_table.json, laid out in memory order first. -/
def decodeTableWord (nbits w : Nat) : Option Instr :=
  match decodeBytes (bytesOfWord (tableWord nbits w)) with
  | .ok i => some i
  | .error _ => none

end Sys2Proof
end

