-- ==== Sys2Proof/Machine/Memory.lean ====
section
/-! DEFINITION. Machine/Memory.lean: the byte memory instruction words are fetched from (20_memory.md R36, R38, R39; log
10), and the primitives `MemRead` and `MemWrite` of 00_scope.md R10. A memory is a list of (address, byte) pairs,
addresses strictly rising and below 2^64; a byte that is not listed has no value. -/

namespace Sys2Proof.Machine

/-- A memory in its canonical form is a strictly rising list of cells (`Memory.wf`). -/
abbrev Memory := List Host.Cell

namespace Memory

/-- Every address is at least `lo`, below 2^64, and above the one before it. -/
def wfFrom (lo : Nat) : Memory → Bool
  | [] => true
  | (a, _) :: rest => decide (lo ≤ a) && decide (a < 2 ^ 64) && wfFrom (a + 1) rest

/-- The canonical form: addresses strictly rising and below 2^64, so that equal memories are equal lists. -/
def wf (m : Memory) : Bool := wfFrom 0 m

/-- The byte at an address; none where nothing has been written (log 10). -/
def read : Memory → Nat → Option Byte
  | [], _ => none
  | (a', b) :: rest, a => if a = a' then some b else read rest a

/-- Writing one byte, keeping the addresses rising. -/
def write : Memory → Nat → Byte → Memory
  | [], a, b => [(a, b)]
  | (a', b') :: rest, a, b =>
    if a < a' then (a, b) :: (a', b') :: rest
    else if a = a' then (a, b) :: rest
    else (a', b') :: write rest a b

/-- `n` bytes from address `a` up, the one at the lowest address first; none when one of them has no value. -/
def readBytes (m : Memory) : Nat → Nat → Option (List Byte)
  | _, 0 => some []
  | a, n + 1 =>
    match m.read a, readBytes m (a + 1) n with
    | some b, some bs => some (b :: bs)
    | _, _ => none

/-- Bytes written from address `a` up, the first at the lowest address. -/
def writeBytes (m : Memory) : Nat → List Byte → Memory
  | _, [] => m
  | a, b :: bs => writeBytes (m.write a b) (a + 1) bs

/-- The unsigned number whose bytes these are, least significant first (20_memory.md R38). -/
def leValue : List Byte → Nat
  | [] => 0
  | b :: bs => b.toNat + 256 * leValue bs

/-- The `n` bytes of a number, least significant first (20_memory.md R38). -/
def leBytes : Nat → Nat → List Byte
  | 0, _ => []
  | n + 1, v => BitVec.ofNat 8 v :: leBytes n (v / 256)

/-- `MemRead(addr, n)` of 00_scope.md R10, little-endian; no rule uses it (20_memory.md R37). None where a byte has no
value or lies beyond 2^64. -/
def memRead (m : Memory) (addr : DWord) (n : Nat) : Option Nat :=
  if addr.toNat + n ≤ 2 ^ 64 then (m.readBytes addr.toNat n).map leValue else none

/-- `MemWrite(addr, n, v)` of 00_scope.md R10, little-endian; no rule uses it (20_memory.md R37). None where a byte lies
beyond 2^64. -/
def memWrite (m : Memory) (addr : DWord) (n : Nat) (v : Nat) : Option Memory :=
  if addr.toNat + n ≤ 2 ^ 64 then some (m.writeBytes addr.toNat (leBytes n v)) else none

end Memory

end Sys2Proof.Machine
end

