-- ==== Sys2Proof/Machine/Tlb.lean ====
section
/-! DEFINITION. Machine/Tlb.lean: TLB entries, memory accesses in flight, operation records, and which entries an
operation requires an agent to invalidate (10_state.md R27 to R32, 40_tlbi_vale1is.md R73 to R80). -/

namespace Sys2Proof

/-- The translation regimes: the two the source names, and every other (20_memory.md R40, 10_state.md R28). -/
inductive Regime where
  | el10 | el20 | other
deriving DecidableEq, Repr, Inhabited

/-- The translation granules (20_memory.md R45). -/
inductive Granule where
  | g4K | g16K | g64K
deriving DecidableEq, Repr, Inhabited

/-- One cached copy of a translation table entry: the record of 10_state.md R28, one field for every property a
condition tests. An entry that holds any stage 1 information has `stage1` true (20_memory.md R41, D23; log 33). -/
structure TlbEntry where
  stage1 : Bool
  d128 : Bool
  final : Bool
  nG : Bool
  asid : BitVec 16
  security : SecurityState
  regime : Regime
  vmid : BitVec 16
  granule : Granule
  level : Fin 4
  log2size : Nat
  vaBase : BitVec 56
  /-- Output address, permissions, attributes and the rest: opaque, no rule reads it. -/
  payload : Nat
deriving DecidableEq, Repr, Inhabited

/-- The least `log2size` of an entry made under a granule (10_state.md R28, from 20_memory.md R45). -/
def Granule.minLog2size : Granule → Nat
  | .g4K => 12
  | .g16K => 14
  | .g64K => 16

/-- The bounds that 10_state.md R28 puts on an entry: 128-bit only with FEAT_D128, a block of `2^12` to `2^55` bytes and
no smaller than the granule, an aligned base; and the upper 8 bits of every ASID tag are zero on an implementation that
uses only 8 (20_memory.md R42, D21; log 31). -/
def TlbEntry.wf (cfg : Config) (e : TlbEntry) : Bool :=
  (!e.d128 || cfg.featD128)
    && decide (e.granule.minLog2size ≤ e.log2size)
    && decide (e.log2size ≤ 55)
    && decide (e.vaBase.toNat % 2 ^ e.log2size = 0)
    && (cfg.asid16 || e.asid.extractLsb' 8 8 == 0)

/-- A memory access that has started and is not complete (10_state.md R31): its XS attribute, and the entries whose
translation information it uses. An instruction fetch is one too (20_memory.md R53, D25). -/
structure Access where
  xs : Bool
  used : List TlbEntry
deriving DecidableEq, Repr, Inhabited

/-- The attribute argument of `TLBI_VA` (00_scope.md R12): which accesses completion waits for. -/
inductive XsAttr where
  | allAttr | excludeXS
deriving DecidableEq, Repr, Inhabited

/-- The level argument of `TLBI_VA`: always the last level, for these two instructions (40_tlbi_vale1is.md R73,
90_conflicts.md C2). -/
inductive TlbiLevel where
  | last
deriving DecidableEq, Repr, Inhabited

/-- The operation record of 40_tlbi_vale1is.md R73. `peEel2` is every PE's `SCR_EL3.EEL2` when the instruction executes,
which R80 reads at that moment and not later (DEDUCED, log 22). -/
structure TlbiOp where
  issuer : Nat
  security : SecurityState
  regime : Regime
  vmid : Option (BitVec 16)
  level : TlbiLevel
  attr : XsAttr
  asid : BitVec 16
  ttl : BitVec 4
  vapg : BitVec 44
  eel2 : Bool
  peEel2 : List Bool
deriving DecidableEq, Repr, Inhabited

namespace Machine

/-! ### Level information (30_encoding.md R63 to R65, 40_tlbi_vale1is.md R74) -/

/-- `TTLinfo(ttl)` of 30_encoding.md R64, for an implementation with FEAT_TTL: `none` is "hardware must assume that the
entry can be from any level". -/
def ttlInfo (lpa2 : Bool) (ttl : BitVec 4) : Option (Granule × Fin 4) :=
  match ttl.toNat with
  | 4 => if lpa2 then some (.g4K, 0) else none
  | 5 => some (.g4K, 1)
  | 6 => some (.g4K, 2)
  | 7 => some (.g4K, 3)
  | 9 => if lpa2 then some (.g16K, 1) else none
  | 10 => some (.g16K, 2)
  | 11 => some (.g16K, 3)
  | 13 => some (.g64K, 1)
  | 14 => some (.g64K, 2)
  | 15 => some (.g64K, 3)
  | _ => none

end Machine

/-- What an operation says of the level of the entries it names (40_tlbi_vale1is.md R74). -/
inductive LevelInfo where
  /-- The entry can be from any level. -/
  | anyLevel
  /-- The leaf comes from this granule and level. -/
  | leaf (g : Granule) (l : Fin 4)
  /-- The TTL field is non-zero without FEAT_TTL: nothing is required (D10, log 30). -/
  | nothingRequired
deriving DecidableEq, Repr, Inhabited

namespace Machine

/-- `Info(op)` of 40_tlbi_vale1is.md R74. -/
def info (cfg : Config) (op : TlbiOp) : LevelInfo :=
  if cfg.featTTL then
    match ttlInfo cfg.featLPA2 op.ttl with
    | none => .anyLevel
    | some (g, l) => .leaf g l
  else if op.ttl = 0 then .anyLevel
  else .nothingRequired

/-! ### The conditions on an entry (40_tlbi_vale1is.md R75 to R78) -/

/-- `va56 = vapg : 0x000` (30_encoding.md R61): VA bits [55:0] of the first byte of the page. -/
def va56 (vapg : BitVec 44) : BitVec 56 := vapg ++ 0#12

/-- `Covers(e, op)` of 40_tlbi_vale1is.md R75: equality of the bits from 55 down to `log2size` (10_state.md R30). VA bits
[63:56] take no part (D24, log 33). -/
def covers (e : TlbEntry) (op : TlbiOp) : Bool :=
  e.vaBase >>> e.log2size == va56 op.vapg >>> e.log2size

/-- `LeafAsid(e, op)` of 40_tlbi_vale1is.md R76; all 16 bits of the ASID are compared (D21). -/
def leafAsid (e : TlbEntry) (op : TlbiOp) : Bool :=
  e.final && (!e.nG || e.asid == op.asid)

/-- `NoteApplies(op)` of 40_tlbi_vale1is.md R77: the operation targets the Secure EL1&0 regime and the Note of
20_memory.md R52 is in force. -/
def noteApplies (cfg : Config) (op : TlbiOp) : Bool :=
  cfg.secureEL2Note && op.security == .secure && op.regime == .el10

/-- `VmidOK(e, op, a)` of 40_tlbi_vale1is.md R77. -/
def vmidOK (cfg : Config) (e : TlbEntry) (op : TlbiOp) (a : AgentId) : Bool :=
  if op.regime = .el20 then true
  else
    match op.vmid with
    | some v => e.vmid == v
    | none =>
      match a with
      | .smmu _ => if noteApplies cfg op then e.vmid == 0 else true
      | .pe _ => true

/-- `Context(e, op, a)` of 40_tlbi_vale1is.md R77. -/
def context (cfg : Config) (e : TlbEntry) (op : TlbiOp) (a : AgentId) : Bool :=
  e.security == op.security && e.regime == op.regime && vmidOK cfg e op a

/-- `SizeOK(e, op)` of 40_tlbi_vale1is.md R78: the test on `TTL[3:2]` is on the bits as written (D11, log 30). -/
def sizeOK (cfg : Config) (e : TlbEntry) (op : TlbiOp) : Bool :=
  e.stage1 && (!e.d128 || (cfg.featD128 && op.ttl.extractLsb' 2 2 == 0))

/-- `LevelOK(e, op)` of 40_tlbi_vale1is.md R78: read entry by entry (D27, log 30). -/
def levelOK (cfg : Config) (e : TlbEntry) (op : TlbiOp) : Bool :=
  match info cfg op with
  | .anyLevel => true
  | .leaf g l => e.granule == g && e.level == l
  | .nothingRequired => false

/-- `AgentOK(a, op)` of 40_tlbi_vale1is.md R80: items 1 and 2 of the Note excuse a PE, other than the issuer, whose
`SCR_EL3.EEL2` differed from the issuer's when the instruction executed. -/
def agentOK (cfg : Config) (a : AgentId) (op : TlbiOp) : Bool :=
  if noteApplies cfg op && cfg.haveEL3 then
    match a with
    | .pe n => if n = op.issuer then true else op.peEel2.getD n false == op.eel2
    | .smmu _ => true
  else true

/-- `Required(e, op, a)` of 40_tlbi_vale1is.md R78: agent `a`, in the scope of `op`, must drop `e`. All six conditions
are necessary (90_conflicts.md C6). -/
def required (cfg : Config) (op : TlbiOp) (a : AgentId) (e : TlbEntry) : Bool :=
  sizeOK cfg e op && covers e op && leafAsid e op && context cfg e op a && levelOK cfg e op && agentOK cfg a op

/-- `Scope(op)` of 40_tlbi_vale1is.md R80: the agents of the issuer's Inner Shareable domain (20_memory.md R51). -/
def scope (cfg : Config) (op : TlbiOp) : List AgentId :=
  cfg.agents.filter (cfg.inIsh op.issuer)

/-- Completion of `op` waits for the access `m` (20_memory.md R47 (b), R48 (b')): every access for `AllAttr`, those with
XS attribute 0 for `ExcludeXS`. -/
def waitsFor (cfg : Config) (op : TlbiOp) (a : AgentId) (m : Access) : Bool :=
  (op.attr == .allAttr || !m.xs) && m.used.any (required cfg op a)

/-! ### Sets of entries and of operations -/

/-- Adding a member to a set held as a list without repeats. -/
def insertNew {α : Type} [DecidableEq α] (x : α) (l : List α) : List α :=
  if x ∈ l then l else l ++ [x]

/-- A TLB after a fill (10_state.md R29): any entry within the bounds of 10_state.md R28; the translation tables are not
modelled, so the fill is a free draw (log 24). An entry outside the bounds is no entry. -/
def fillTlb (cfg : Config) (e : TlbEntry) (tlb : List TlbEntry) : List TlbEntry :=
  if e.wf cfg then insertNew e tlb else tlb

end Machine

/-- The FREE VALUE of what an agent's TLB was filled with before reset ended: "any set of entries" (10_state.md R35,
70_reset_and_hazards.md R95, D19). No body: nothing is known of it (log 5). -/
opaque Config.tlbBeforeReset : Config → AgentId → List TlbEntry

namespace Machine

/-- The TLB of an agent right after reset: any set of entries within the bounds of 10_state.md R28. -/
def resetTlb (cfg : Config) (a : AgentId) : List TlbEntry :=
  (cfg.tlbBeforeReset a).foldl (fun tlb e => fillTlb cfg e tlb) []

end Machine

end Sys2Proof
end

