-- ==== Sys2Proof/Machine/State.lean ====
section
/-! DEFINITION. Machine/State.lean: every piece of state the spec gives the machine (10_state.md R14 to R35,
60_exceptions.md R84, R85, R89), as plain data, and the state after reset. A one-bit field is a Bool, true for 1 (log 40). -/

namespace Sys2Proof.Machine

/-- The fields of PSTATE the spec names: `PSTATE.EL` (10_state.md R17), which stack pointer is selected and the masks
`PSTATE.D, A, I, F` (60_exceptions.md R89). There is no condition flag (10_state.md R18). -/
structure Pstate where
  el : EL
  /-- The stack pointer of the current level is selected (1), or that of EL0 (0). -/
  spx : Bool
  d : Bool
  a : Bool
  i : Bool
  f : Bool
deriving DecidableEq, Repr, Inhabited

/-- The fields of `HCR_EL2` the instructions read (10_state.md R19). -/
structure HcrEl2 where
  e2h : Bool
  tge : Bool
  ttlb : Bool
  ttlbis : Bool
deriving DecidableEq, Repr, Inhabited

/-- The fields of `SCR_EL3` the instructions and the predicates of the spec read (10_state.md R20, R25). -/
structure ScrEl3 where
  ns : Bool
  nse : Bool
  eel2 : Bool
  fgten : Bool
  hxen : Bool
deriving DecidableEq, Repr, Inhabited

/-- The field of `HFGITR_EL2` the instructions read (10_state.md R21). -/
structure HfgitrEl2 where
  tlbivale1is : Bool
deriving DecidableEq, Repr, Inhabited

/-- The fields of `HCRX_EL2` the instructions read (10_state.md R22). -/
structure HcrxEl2 where
  fnxs : Bool
  fgtnxs : Bool
deriving DecidableEq, Repr, Inhabited

/-- The registers of one Exception level that taking an exception to it uses (60_exceptions.md R89): `ELR_ELx`,
`SPSR_ELx` as the PSTATE it saves (log 15), `ESR_ELx` as the 32 bits the spec lays out (log 14), `VBAR_ELx`. -/
structure ExcBank where
  elr : DWord
  spsr : Pstate
  esr : BitVec 32
  vbar : DWord
deriving DecidableEq, Repr, Inhabited

/-- The levels an exception can be taken to. -/
inductive ExcLevel where
  | el1 | el2 | el3
deriving DecidableEq, Repr, Inhabited

/-- The outcomes of 60_exceptions.md R84 and R85, as the spec writes them. -/
inductive Raised where
  /-- `Exception (kind = Undefined, from = EL)` (60_exceptions.md R84). -/
  | undefined (fromEl : EL)
  /-- `Exception (kind = SystemAccessTrap, from, target, code, insn)` (60_exceptions.md R85). -/
  | systemAccessTrap (fromEl target : EL) (code : BitVec 6) (insn : Instr)
deriving DecidableEq, Repr, Inhabited

/-- The registers of one PE (10_state.md R15 to R23, 60_exceptions.md R89). -/
structure PeRegs where
  /-- `X0` to `X30` (10_state.md R15). -/
  x : Vector DWord 31
  pc : DWord
  pstate : Pstate
  hcr : HcrEl2
  scr : ScrEl3
  hfgitr : HfgitrEl2
  hcrx : HcrxEl2
  /-- The current VMID, `VMID[]` (10_state.md R23, D15). -/
  vmid : BitVec 16
  exc1 : ExcBank
  exc2 : ExcBank
  exc3 : ExcBank
deriving DecidableEq, Repr, Inhabited

/-- What every agent has, PE or System MMU: its TLB (10_state.md R27), a set as a list without repeats, and its memory
accesses in flight (10_state.md R31). -/
structure Mmu where
  tlb : List TlbEntry
  inflight : List Access
deriving DecidableEq, Repr, Inhabited

/-- One PE: its registers, its TLB and accesses, `pendingTLBI(p)` (10_state.md R32), a set as a list without repeats, and
the outcome of the last exception it raised (60_exceptions.md R84, R85; log 13). -/
structure Pe where
  regs : PeRegs
  mmu : Mmu
  pending : List TlbiOp
  raised : Option Raised
deriving DecidableEq, Repr, Inhabited

/-- One move of the environment, or a PE's turn (log 26). A move that is not enabled changes nothing. -/
inductive Event where
  /-- PE `p` executes its next instruction. -/
  | instr (p : Nat)
  /-- Agent `a` caches entry `e` (10_state.md R29). -/
  | fill (a : AgentId) (e : TlbEntry)
  /-- Agent `a` removes entry `e` from its TLB, for no reason the model knows (10_state.md R29). -/
  | drop (a : AgentId) (e : TlbEntry)
  /-- Agent `a` removes every entry the pending operation `op` of PE `p` requires it to (40_tlbi_vale1is.md R79). -/
  | invalidate (a : AgentId) (p : Nat) (op : TlbiOp)
  /-- Agent `a` starts the memory access `m`, which uses entries its TLB holds (10_state.md R31). -/
  | start (a : AgentId) (m : Access)
  /-- The memory access `m` of agent `a` completes (10_state.md R31). -/
  | finish (a : AgentId) (m : Access)
  /-- The completion step of the operation `op` of PE `p` (20_memory.md R47, R48). -/
  | complete (p : Nat) (op : TlbiOp)
  /-- PE `p` returns from an exception (60_exceptions.md R90). -/
  | exceptionReturn (p : Nat)
  /-- Software outside this spec runs on PE `p` and leaves these registers (log 27). -/
  | software (p : Nat) (r : PeRegs)
deriving DecidableEq, Repr, Inhabited

/-- The machine. `cfg` is `Config`, which no step changes (10_state.md R34; log 1). -/
structure State where
  cfg : Config
  /-- The memory instruction words stand in; no step changes it (D1; log 10). -/
  mem : List Host.Cell
  /-- The PEs, number 0 first (10_state.md R14). -/
  pes : List Pe
  /-- The System MMUs, number 0 first (10_state.md R14). -/
  smmus : List Mmu
  /-- The number of the PE whose turn it is; the model's own. -/
  cur : Nat
  /-- The moves still to come, the next one first; the model's own (log 26). -/
  events : List Event
  /-- How many times a free value has been used; the model's own (log 14). -/
  freeCount : Nat
deriving DecidableEq, Repr, Inhabited

/-- Why the machine stops with a fault. -/
inductive Fault where
  /-- Raised by a fetch of a byte nothing has written: no program text stands there (log 10). Safe: nothing is claimed of
  what the hardware does. -/
  | unwrittenMemory (addr : Nat)
deriving DecidableEq, Repr, Inhabited

/-- Why the machine refuses to go on. -/
inductive Refusal where
  /-- Raised by `exec` for an instruction that has no meaning yet; no arm does. Safe. -/
  | notModelled (mnemonic : String)
  /-- Raised by a fetch from a `pc` that is no multiple of 4, which is outside the spec (20_memory.md R39, D5). Safe. -/
  | misalignedPc (pc : DWord)
  /-- Raised by a fetch of a word that is neither instruction: "outside this spec: ... a model refuses it by name"
  (30_encoding.md R71). Safe. -/
  | outsideSpec (r : DecodeReject)
  /-- Raised by an instruction that needs the Security state when FEAT_RME is implemented and `SCR_EL3.{NSE, NS}` is
  `{1, 0}`: "no Security state; the model refuses" (10_state.md R26, U9). Safe. -/
  | reservedSecurityState
deriving DecidableEq, Repr, Inhabited

/-- The highest implemented Exception level, where a PE is after reset (10_state.md R35). PRESUMED (GK32), log 3. -/
def highestEL (cfg : Config) : EL :=
  if cfg.haveEL3 then .el3 else if cfg.haveEL2 then .el2 else .el1

/-- The registers of a PE after reset: `pc` at `ResetPC` (10_state.md R35), the highest implemented level; every other
value is the model's own (log 2, log 3, log 4). -/
def PeRegs.atReset (cfg : Config) : PeRegs where
  x := Vector.replicate 31 0
  pc := cfg.resetPC
  pstate := { el := highestEL cfg, spx := true, d := true, a := true, i := true, f := true }
  hcr := { e2h := false, tge := false, ttlb := false, ttlbis := false }
  scr := { ns := false, nse := false, eel2 := false, fgten := false, hxen := false }
  hfgitr := { tlbivale1is := false }
  hcrx := { fnxs := false, fgtnxs := false }
  vmid := 0
  exc1 := { elr := 0, spsr := ⟨.el0, false, false, false, false, false⟩, esr := 0, vbar := 0 }
  exc2 := { elr := 0, spsr := ⟨.el0, false, false, false, false, false⟩, esr := 0, vbar := 0 }
  exc3 := { elr := 0, spsr := ⟨.el0, false, false, false, false, false⟩, esr := 0, vbar := 0 }

/-- An agent's TLB after reset holds any set of entries, and no access is in flight (10_state.md R35, D19; log 5, 6). -/
def Mmu.atReset (cfg : Config) (a : AgentId) : Mmu where
  tlb := resetTlb cfg a
  inflight := []

/-- A PE after reset: no operation pending (10_state.md R35, D19). -/
def Pe.atReset (cfg : Config) (n : Nat) : Pe where
  regs := PeRegs.atReset cfg
  mmu := Mmu.atReset cfg (.pe n)
  pending := []
  raised := none

/-- The machine of any configuration right after reset (10_state.md R35, 70_reset_and_hazards.md R95). -/
def State.resetOf (cfg : Config) : State where
  cfg := cfg
  mem := []
  pes := (List.range cfg.pes.length).map (Pe.atReset cfg)
  smmus := (List.range cfg.smmuCount).map (fun n => Mmu.atReset cfg (.smmu n))
  cur := 0
  events := []
  freeCount := 0

/-- The machine right after reset, for the configuration `Config.atReset` (log 1). -/
def State.reset : State := State.resetOf Config.atReset

end Sys2Proof.Machine
end

