-- ==== Sys2Proof/Machine/Flags.lean ====
section
/-! DEFINITION. Machine/Flags.lean: PSTATE. The instructions write no condition flag, and the spec names none
(10_state.md R18); what changes PSTATE is taking an exception (60_exceptions.md R89). PRESUMED (GK28), log 13. -/

namespace Sys2Proof.Machine

/-- The Exception level of a target of exceptions. -/
def ExcLevel.toEL : ExcLevel → EL
  | .el1 => .el1
  | .el2 => .el2
  | .el3 => .el3

/-- PSTATE after an exception is taken to `target`: its level, its own stack pointer, `PSTATE.{D, A, I, F}` set
(60_exceptions.md R89). -/
def Pstate.onEntry (target : ExcLevel) : Pstate where
  el := target.toEL
  spx := true
  d := true
  a := true
  i := true
  f := true

/-- The offset from `VBAR_ELx`: 0x400 from a lower level, 0x200 from the same level on its own stack pointer, 0x000 on the
EL0 stack pointer (60_exceptions.md R89). -/
def vectorOffset (old : Pstate) (target : ExcLevel) : DWord :=
  if old.el.toNat < target.toEL.toNat then 0x400
  else if old.spx then 0x200
  else 0x000

end Sys2Proof.Machine
end

