-- ==== Sys2Proof/Machine/Control.lean ====
section
/-! DEFINITION. Machine/Control.lean: the predicates over the control registers (10_state.md R24 to R26), the target of
an operation (40_tlbi_vale1is.md R72), and the conditions of the traps (60_exceptions.md R86, R88). -/

namespace Sys2Proof.Machine

/-- `EL2Enabled()` of 10_state.md R24. PRESUMED (GK9, D22), log 17. -/
def el2Enabled (cfg : Config) (r : PeRegs) : Bool :=
  cfg.haveEL2 && (!cfg.haveEL3 || r.scr.ns || r.scr.eel2)

/-- `IsHCRXEL2Enabled()` of 10_state.md R25. PRESUMED (GK10, D22), log 17. -/
def hcrxEnabled (cfg : Config) (r : PeRegs) : Bool :=
  cfg.featHCX && (!cfg.haveEL3 || r.scr.hxen) && el2Enabled cfg r

/-- `SS(p)` of 10_state.md R26: the Security state a TLBI targets; none for the reserved `{NSE, NS} = {1, 0}`.
PRESUMED (GK11, D14), log 18. -/
def securityState (cfg : Config) (r : PeRegs) : Option SecurityState :=
  if !cfg.haveEL3 then some cfg.securityStateNoEL3
  else if !cfg.featRME then some (if r.scr.ns then .nonSecure else .secure)
  else
    match r.scr.nse, r.scr.ns with
    | false, false => some .secure
    | false, true => some .nonSecure
    | true, true => some .realm
    | true, false => none

/-- `VmidArg(p)` of 40_tlbi_vale1is.md R72: the current VMID where EL2 is enabled, else none (90_conflicts.md C5). -/
def vmidArg (cfg : Config) (r : PeRegs) : Option (BitVec 16) :=
  if el2Enabled cfg r then some r.vmid else none

/-- The EL2&0 regime is the one acted on: at EL2 and EL3 with EL2 enabled and `HCR_EL2.{E2H, TGE} = {1, 1}`
(40_tlbi_vale1is.md R72, 90_conflicts.md C3, C4; log 19, log 20). -/
def targetsEl20 (cfg : Config) (r : PeRegs) : Bool :=
  (r.pstate.el == .el2 || r.pstate.el == .el3) && el2Enabled cfg r && r.hcr.e2h && r.hcr.tge

/-- The regime and VMID of `Target(p)` (40_tlbi_vale1is.md R72). -/
def targetRegime (cfg : Config) (r : PeRegs) : Regime × Option (BitVec 16) :=
  if targetsEl20 cfg r then (.el20, none) else (.el10, vmidArg cfg r)

/-- Row 3 of 60_exceptions.md R86. -/
def trapTtlb (cfg : Config) (r : PeRegs) : Bool := el2Enabled cfg r && r.hcr.ttlb

/-- Row 4 of 60_exceptions.md R86. -/
def trapTtlbis (cfg : Config) (r : PeRegs) : Bool := el2Enabled cfg r && r.hcr.ttlbis

/-- The fine-grained trap is armed: FEAT_FGT, and `SCR_EL3.FGTEn` where EL3 is implemented (60_exceptions.md R88). -/
def fgtArmed (cfg : Config) (r : PeRegs) : Bool :=
  el2Enabled cfg r && cfg.featFGT && (!cfg.haveEL3 || r.scr.fgten)

/-- Row 5 of 60_exceptions.md R86: the fine-grained trap of `TLBI VALE1IS`. -/
def trapFgt (cfg : Config) (r : PeRegs) : Bool := fgtArmed cfg r && r.hfgitr.tlbivale1is

/-- Row 6 of 60_exceptions.md R86: the fine-grained trap of `TLBI VALE1ISNXS`, with the two more conditions of
40_tlbi_vale1is.md R82. -/
def trapFgtNxs (cfg : Config) (r : PeRegs) : Bool :=
  fgtArmed cfg r && cfg.featHCX && (!hcrxEnabled cfg r || !r.hcrx.fgtnxs) && r.hfgitr.tlbivale1is

/-- The `HCRX_EL2.FnXS` override of 10_state.md R22, in the EL1 arm of 40_tlbi_vale1is.md R81 only. -/
def fnxsOverride (cfg : Config) (r : PeRegs) : Bool :=
  cfg.featXS && cfg.featHCX && hcrxEnabled cfg r && r.hcrx.fnxs

/-- The level an Undefined exception is taken to: from EL0 to EL1, or to EL2 when EL2 is enabled and `HCR_EL2.TGE = 1`;
otherwise the current level (60_exceptions.md R84). PRESUMED (GK26), log 13. -/
def undefinedTarget (cfg : Config) (r : PeRegs) : ExcLevel :=
  match r.pstate.el with
  | .el0 => if el2Enabled cfg r && r.hcr.tge then .el2 else .el1
  | .el1 => .el1
  | .el2 => .el2
  | .el3 => .el3

/-- The level the PE is at can be current: EL2 only when EL2 is enabled, EL3 only when implemented (10_state.md R17). -/
def legalEL (cfg : Config) (r : PeRegs) : Bool :=
  match r.pstate.el with
  | .el2 => el2Enabled cfg r
  | .el3 => cfg.haveEL3
  | _ => true

/-- The state invariant of a PE's registers (10_state.md R17), with every register an instruction address comes from a
multiple of 4 (10_state.md R16; log 39). -/
def PeRegs.legal (cfg : Config) (r : PeRegs) : Bool :=
  legalEL cfg r && aligned4 r.pc
    && aligned4 r.exc1.vbar && aligned4 r.exc2.vbar && aligned4 r.exc3.vbar
    && aligned4 r.exc1.elr && aligned4 r.exc2.elr && aligned4 r.exc3.elr

end Sys2Proof.Machine
end

