-- ==== Sys2Proof/Machine/Operands.lean ====
section
/-! DEFINITION. Machine/Operands.lean: the register operand and its three fields (10_state.md R15, 30_encoding.md R60 to
R66). -/

namespace Sys2Proof.Machine

/-- `x[t]` (00_scope.md R10): general register `t`, and 64 zero bits for 31 (10_state.md R15, D3; log 7). -/
def PeRegs.readX (r : PeRegs) (t : Nat) : DWord :=
  if h : t < 31 then r.x[t] else 0

/-- `x[t] <- v` (00_scope.md R10); no rule uses it. A write to number 31, which is no register, is discarded (log 7). -/
def PeRegs.writeX (r : PeRegs) (t : Nat) (v : DWord) : PeRegs :=
  if h : t < 31 then { r with x := r.x.set t v } else r

/-- The field `ASID`, bits [63:48] of the operand (30_encoding.md R61, R62). -/
def operandAsid (xt : DWord) : BitVec 16 := xt.extractLsb' 48 16

/-- The field `TTL`, bits [47:44] of the operand (30_encoding.md R61, R63). -/
def operandTtl (xt : DWord) : BitVec 4 := xt.extractLsb' 44 4

/-- The field `VA[55:12]`, bits [43:0] of the operand (30_encoding.md R61, R66). -/
def operandVapg (xt : DWord) : BitVec 44 := xt.extractLsb' 0 44

end Sys2Proof.Machine
end

