-- ==== Sys2Proof/Machine/Ops.lean ====
section
/-! DEFINITION. Machine/Ops.lean: the named operations over the state: PEs and agents, advancing the pc, taking an
exception and returning from one, and starting an operation (10_state.md R14, R16, 60_exceptions.md R84 to R90,
40_tlbi_vale1is.md R73). -/

namespace Sys2Proof.Machine

/-! ### PEs and agents -/

/-- PE number `p`. -/
def State.pe (s : State) (p : Nat) : Pe := s.pes.getD p default

/-- The state with PE `p` replaced. -/
def State.setPe (s : State) (p : Nat) (v : Pe) : State := { s with pes := s.pes.set p v }

/-- The registers of the executing PE (00_scope.md R10). -/
def State.regs (s : State) : PeRegs := (s.pe s.cur).regs

/-- The TLB and accesses of agent `a` (10_state.md R27, R31). -/
def State.mmu (s : State) : AgentId → Mmu
  | .pe n => (s.pe n).mmu
  | .smmu n => s.smmus.getD n default

/-- The state with the TLB and accesses of agent `a` replaced. -/
def State.setMmu (s : State) : AgentId → Mmu → State
  | .pe n, m => s.setPe n { s.pe n with mmu := m }
  | .smmu n, m => { s with smmus := s.smmus.set n m }

/-- `pc <- pc + 4`, modulo 2^64 (10_state.md R16, D2; log 8). -/
def Pe.advance (pe : Pe) : Pe := { pe with regs := { pe.regs with pc := pe.regs.pc + 4 } }

/-! ### Taking an exception and returning from one (60_exceptions.md R89, R90) -/

/-- The exception registers of a level. -/
def PeRegs.bank (r : PeRegs) : ExcLevel → ExcBank
  | .el1 => r.exc1
  | .el2 => r.exc2
  | .el3 => r.exc3

/-- The registers with the exception registers of a level replaced. -/
def PeRegs.setBank (r : PeRegs) : ExcLevel → ExcBank → PeRegs
  | .el1, b => { r with exc1 := b }
  | .el2, b => { r with exc2 := b }
  | .el3, b => { r with exc3 := b }

/-- Taking a synchronous exception to `target` (60_exceptions.md R89): `ELR` receives the address of the instruction,
`SPSR` the old PSTATE, `ESR` the syndrome, and control goes to the vector. Pending operations, TLBs and accesses stay.
`raised` keeps the outcome of R84 or R85. PRESUMED (GK28), log 13. -/
def Pe.takeException (pe : Pe) (target : ExcLevel) (esr : BitVec 32) (why : Raised) : Pe :=
  let r := pe.regs
  let b := r.bank target
  let saved := r.setBank target { b with elr := r.pc, spsr := r.pstate, esr := esr }
  { pe with
    regs := { saved with pc := b.vbar + vectorOffset r.pstate target, pstate := Pstate.onEntry target }
    raised := some why }

/-- The syndrome of a trapped System instruction: EC [31:26] = 0x18, IL [25] = 1, and the instruction's own fields,
`Op0` [21:20], `Op2` [19:17], `Op1` [16:14], `CRn` [13:10], `Rt` [9:5], `CRm` [4:1], direction [0] = 0
(60_exceptions.md R85). PRESUMED (GK27), log 14. -/
def trapSyndrome (i : Instr) : BitVec 32 :=
  let f := i.fields
  0x18#6 ++ (1#1 ++ (0#3 ++ (f.op0 ++ (f.op2 ++ (f.op1 ++ (f.crn ++ (f.rt ++ (f.crm ++ 0#1))))))))

/-- The syndrome of an Undefined exception: EC [31:26] = 0x00 and nothing of the instruction (60_exceptions.md R84); the
IL bit is not stated and is given here. PRESUMED (GK26), log 14. -/
def undefinedSyndrome (il : BitVec 1) : BitVec 32 := 0x00#6 ++ (il ++ 0#25)

/-- `raise Undefined()` (60_exceptions.md R84): the executing PE takes the exception. -/
def State.raiseUndefined (s : State) : State :=
  let pe := s.pe s.cur
  { s.setPe s.cur
      (pe.takeException (undefinedTarget s.cfg pe.regs) (undefinedSyndrome (Config.undefinedIL s.freeCount))
        (.undefined pe.regs.pstate.el))
    with freeCount := s.freeCount + 1 }

/-- `raise SystemAccessTrap(EL2, 0x18)` for the instruction `i` (60_exceptions.md R85): the executing PE takes the
exception to EL2. -/
def State.trapToEl2 (s : State) (i : Instr) : State :=
  let pe := s.pe s.cur
  s.setPe s.cur
    (pe.takeException .el2 (trapSyndrome i) (.systemAccessTrap pe.regs.pstate.el .el2 0x18 i))

/-- The level whose exception registers a return at the current level uses; none at EL0. -/
def Pstate.returnLevel (p : Pstate) : Option ExcLevel :=
  match p.el with
  | .el0 => none
  | .el1 => some .el1
  | .el2 => some .el2
  | .el3 => some .el3

/-- An exception return (60_exceptions.md R90): PSTATE from `SPSR_ELx` and `pc` from `ELR_ELx`, `ELx` the current level.
None at EL0, and where it would go to a higher level, which is left by a return and not entered (60_exceptions.md R92).
PRESUMED (GK29), log 16. -/
def PeRegs.exceptionReturn (r : PeRegs) : Option PeRegs :=
  match r.pstate.returnLevel with
  | none => none
  | some l =>
    let b := r.bank l
    if b.spsr.el.toNat ≤ r.pstate.el.toNat then some { r with pc := b.elr, pstate := b.spsr } else none

/-! ### Starting an operation (40_tlbi_vale1is.md R73) -/

/-- Every PE's `SCR_EL3.EEL2`, number 0 first (40_tlbi_vale1is.md R80). -/
def State.allEel2 (s : State) : List Bool := s.pes.map (fun pe => pe.regs.scr.eel2)

/-- The record `TLBI_VA(sec, regime, v, ISH, Last, attr, x[t])` builds for the executing PE (40_tlbi_vale1is.md R73);
every control value is read now (D7). -/
def State.tlbiOp (s : State) (sec : SecurityState) (attr : XsAttr) (t : Nat) : TlbiOp where
  issuer := s.cur
  security := sec
  regime := (targetRegime s.cfg s.regs).1
  vmid := (targetRegime s.cfg s.regs).2
  level := .last
  attr := attr
  asid := operandAsid (s.regs.readX t)
  ttl := operandTtl (s.regs.readX t)
  vapg := operandVapg (s.regs.readX t)
  eel2 := s.cfg.haveEL3 && s.regs.scr.eel2
  peEel2 := s.allEel2

/-- The operation becomes pending (10_state.md R32) and the pc advances (10_state.md R16). -/
def State.addOp (s : State) (op : TlbiOp) : State :=
  let pe := s.pe s.cur
  s.setPe s.cur (Pe.advance { pe with pending := insertNew op pe.pending })

/-- `TLBI_VA` for `Target(p)` (40_tlbi_vale1is.md R72, R73), refused where there is no Security state (10_state.md R26). -/
def State.issueTlbi (s : State) (attr : XsAttr) (t : Nat) : Host.Outcome State Fault Refusal :=
  match securityState s.cfg s.regs with
  | none => .refused .reservedSecurityState
  | some sec => .next (s.addOp (s.tlbiOp sec attr t))

/-! ### Completion (20_memory.md R47, R48) -/

/-- Agent `a` holds nothing back: no required entry in its TLB, no access that completion waits for. -/
def State.agentDone (s : State) (op : TlbiOp) (a : AgentId) : Bool :=
  (s.mmu a).tlb.all (fun e => !required s.cfg op a e)
    && (s.mmu a).inflight.all (fun m => !waitsFor s.cfg op a m)

/-- The completion step of `op` is enabled: (a) and (b) of 20_memory.md R47, or (a) and (b') of R48. -/
def State.canComplete (s : State) (op : TlbiOp) : Bool :=
  (scope s.cfg op).all (s.agentDone op)

end Sys2Proof.Machine
end

