-- ==== Sys2Proof/Machine/Tlbi.lean ====
section
/-! DEFINITION. Machine/Tlbi.lean: the meanings of the two instructions (40_tlbi_vale1is.md R81, R82). -/

namespace Sys2Proof.Machine

/-- `TLBI VALE1IS{, <Xt>}`: 40_tlbi_vale1is.md R81. -/
def execTlbiVale1is (t : Nat) (s : State) : Host.Outcome State Fault Refusal :=
  match s.regs.pstate.el with
  | .el0 => .next s.raiseUndefined
  | .el1 =>
    if trapTtlb s.cfg s.regs then .next (s.trapToEl2 (.tlbiVale1is t))
    else if trapTtlbis s.cfg s.regs then .next (s.trapToEl2 (.tlbiVale1is t))
    else if trapFgt s.cfg s.regs then .next (s.trapToEl2 (.tlbiVale1is t))
    else s.issueTlbi (if fnxsOverride s.cfg s.regs then .excludeXS else .allAttr) t
  | .el2 => s.issueTlbi .allAttr t
  | .el3 => s.issueTlbi .allAttr t

/-- `TLBI VALE1ISNXS{, <Xt>}`: 40_tlbi_vale1is.md R82. -/
def execTlbiVale1isnxs (t : Nat) (s : State) : Host.Outcome State Fault Refusal :=
  if !s.cfg.featXS then .next s.raiseUndefined
  else
    match s.regs.pstate.el with
    | .el0 => .next s.raiseUndefined
    | .el1 =>
      if trapTtlb s.cfg s.regs then .next (s.trapToEl2 (.tlbiVale1isnxs t))
      else if trapTtlbis s.cfg s.regs then .next (s.trapToEl2 (.tlbiVale1isnxs t))
      else if trapFgtNxs s.cfg s.regs then .next (s.trapToEl2 (.tlbiVale1isnxs t))
      else s.issueTlbi .excludeXS t
    | .el2 => s.issueTlbi .excludeXS t
    | .el3 => s.issueTlbi .excludeXS t

end Sys2Proof.Machine
end

