-- ==== Sys2Proof/Machine/Dispatch.lean ====
section
/-! DEFINITION. Machine/Dispatch.lean: one arm per instruction. -/

namespace Sys2Proof.Machine

def exec (i : Instr) (s : State) : Host.Outcome State Fault Refusal :=
  match i with
  | .tlbiVale1is t => Sys2Proof.Machine.execTlbiVale1is t s
  | .tlbiVale1isnxs t => Sys2Proof.Machine.execTlbiVale1isnxs t s

end Sys2Proof.Machine
end

