-- ==== Sys2Proof/Machine/Environment.lean ====
section
/-! DEFINITION. Machine/Environment.lean: the moves of the environment (10_state.md R29, R31, R32, 40_tlbi_vale1is.md R79,
20_memory.md R47, R48, 60_exceptions.md R90, R93; log 26). A move that is not enabled changes nothing. -/

namespace Sys2Proof.Machine

/-- Agent `a` caches `e` (10_state.md R29). -/
def State.envFill (s : State) (a : AgentId) (e : TlbEntry) : State :=
  s.setMmu a { s.mmu a with tlb := fillTlb s.cfg e (s.mmu a).tlb }

/-- Agent `a` drops `e` (10_state.md R29). -/
def State.envDrop (s : State) (a : AgentId) (e : TlbEntry) : State :=
  s.setMmu a { s.mmu a with tlb := (s.mmu a).tlb.erase e }

/-- Agent `a`, in the scope of the pending operation `op` of PE `p`, removes every entry it is required to
(40_tlbi_vale1is.md R79); the remote PE executes nothing for it (60_exceptions.md R93). -/
def State.envInvalidate (s : State) (a : AgentId) (p : Nat) (op : TlbiOp) : State :=
  if op ∈ (s.pe p).pending ∧ a ∈ scope s.cfg op then
    s.setMmu a { s.mmu a with tlb := (s.mmu a).tlb.filter (fun e => !required s.cfg op a e) }
  else s

/-- Agent `a` starts the access `m`; it can use only translation information its TLB holds (10_state.md R31, 20_memory.md
R53; log 25). -/
def State.envStart (s : State) (a : AgentId) (m : Access) : State :=
  if m.used.all (fun e => (s.mmu a).tlb.contains e) then
    s.setMmu a { s.mmu a with inflight := (s.mmu a).inflight ++ [m] }
  else s

/-- The access `m` of agent `a` completes (10_state.md R31). -/
def State.envFinish (s : State) (a : AgentId) (m : Access) : State :=
  s.setMmu a { s.mmu a with inflight := (s.mmu a).inflight.erase m }

/-- The operation `op` of PE `p` completes, where it can (20_memory.md R47, R48). -/
def State.envComplete (s : State) (p : Nat) (op : TlbiOp) : State :=
  if s.canComplete op then s.setPe p { s.pe p with pending := (s.pe p).pending.erase op } else s

/-- PE `p` has the registers `r`, where they are legal (10_state.md R17). DESIGN CHOICE, log 27, log 29: `CompletionPoint`
(20_memory.md R49, D7) does not hold this back; the PE can stand at a completion point before or after with an operation
of its own pending. -/
def State.setRegs (s : State) (p : Nat) (r : PeRegs) : State :=
  if r.legal s.cfg then s.setPe p { s.pe p with regs := r } else s

/-- PE `p` returns from an exception, where it can (60_exceptions.md R90; log 16). -/
def State.envReturn (s : State) (p : Nat) : State :=
  match (s.pe p).regs.exceptionReturn with
  | none => s
  | some r => s.setRegs p r

/-- One move of the environment. -/
def State.environment (s : State) : Event → State
  | .instr _ => s
  | .fill a e => s.envFill a e
  | .drop a e => s.envDrop a e
  | .invalidate a p op => s.envInvalidate a p op
  | .start a m => s.envStart a m
  | .finish a m => s.envFinish a m
  | .complete p op => s.envComplete p op
  | .exceptionReturn p => s.envReturn p
  | .software p r => s.setRegs p r

end Sys2Proof.Machine
end

