-- ==== Sys2Proof/Machine/Fetch.lean ====
section
/-! DEFINITION. Machine/Fetch.lean: fetching the executing PE's next instruction (20_memory.md R38, R39, 30_encoding.md
R70, R71), and placing an instruction where it will be fetched. -/

namespace Sys2Proof.Machine

/-- What a fetch finds. -/
inductive Fetched where
  /-- The PE waits at a completion point with an operation of its own pending (20_memory.md R49). -/
  | wait
  | instr (i : Instr)
  | fault (f : Fault)
  | refused (r : Refusal)
deriving DecidableEq, Repr

/-- The executing PE does not execute at its `pc` yet: a completion point, with an operation pending (20_memory.md R49).
DESIGN CHOICE, log 29: only turns read this, software and exception returns do not. -/
def State.waiting (s : State) : Bool :=
  s.cfg.completionPoint.contains s.regs.pc && !(s.pe s.cur).pending.isEmpty

/-- The first of the four addresses from `a` up that nothing has written, for the name of the fault. -/
def firstUnwritten (m : Memory) (a : Nat) : Nat → Nat
  | 0 => a
  | n + 1 => if (m.read a).isNone then a else firstUnwritten m (a + 1) n

/-- The executing PE's next instruction. -/
def State.fetch (s : State) : Fetched :=
  if s.waiting then .wait
  else if !aligned4 s.regs.pc then .refused (.misalignedPc s.regs.pc)
  else
    match Memory.readBytes s.mem s.regs.pc.toNat 4 with
    | none => .fault (.unwrittenMemory (firstUnwritten s.mem s.regs.pc.toNat 3))
    | some bs =>
      match decodeBytes bs with
      | .ok i => .instr i
      | .error r => .refused (.outsideSpec r)

/-- The multiple of 4 at or below an address. -/
def alignDown4 (a : DWord) : DWord := a.extractLsb' 2 62 ++ 0#2

/-- The state with the word `w` standing at the executing PE's `pc`, made an instruction address and no completion point,
and the next turn that PE's (log 35). -/
def State.placeWord (s : State) (w : Word) : State :=
  let pe := s.pe s.cur
  let pc := alignDown4 pe.regs.pc
  { s.setPe s.cur { pe with regs := { pe.regs with pc := pc } } with
    cfg := { s.cfg with completionPoint := s.cfg.completionPoint.filter (fun a => a != pc) }
    mem := Memory.writeBytes s.mem pc.toNat (bytesOfWord w)
    events := .instr s.cur :: s.events }

end Sys2Proof.Machine
end

