-- ==== Sys2Proof/Machine/Step.lean ====
section
/-! DEFINITION. Machine/Step.lean: one step of the machine: the executing PE's next instruction, or the next move of the
environment (log 26). -/

namespace Sys2Proof.Machine

/-- The executing PE's turn: fetch, decode, execute. -/
def State.turn (s : State) : Host.Outcome State Fault Refusal :=
  match s.fetch with
  | .wait => .next s
  | .instr i => exec i s
  | .fault f => .fault f
  | .refused r => .refused r

/-- One step. With no move listed the executing PE takes its turn; a turn of a PE that does not exist changes nothing. -/
def step (s : State) : Host.Outcome State Fault Refusal :=
  match s.events with
  | [] => s.turn
  | .instr p :: rest =>
    if p < s.pes.length then State.turn { s with cur := p, events := rest } else .next { s with events := rest }
  | ev :: rest => .next (State.environment { s with events := rest } ev)

/-- `s` with the instruction of an opcode-table row stored where `step` fetches its next instruction (log 35). -/
def State.withFetchWord (s : State) (nbits w : Nat) : State := s.placeWord (tableWord nbits w)

end Sys2Proof.Machine
end

