-- ==== Sys2Proof/Safety.lean ====
section
/-! DEFINITION. Safety.lean: the invariant of the machine and the terms claims are stated in. The conditions of a rule are
written here as propositions over the fields, apart from the machine's own Boolean functions. -/

namespace Sys2Proof.Machine

/-! ### The invariant -/

/-- A TLB is a set of entries within the bounds of 10_state.md R28. -/
structure TlbWf (cfg : Config) (tlb : List TlbEntry) : Prop where
  entries : ∀ e ∈ tlb, e.wf cfg = true
  nodup : tlb.Nodup

/-- A pending record of PE `p` (40_tlbi_vale1is.md R73): issued by `p`, for one of the two regimes the instructions act on,
and with no VMID for EL2&0 (20_memory.md R43). -/
structure OpWf (p : Nat) (op : TlbiOp) : Prop where
  issuer : op.issuer = p
  regime : op.regime = .el10 ∨ op.regime = .el20
  vmid : op.regime = .el20 → op.vmid = none

/-- The invariant every step keeps. -/
structure State.Inv (s : State) : Prop where
  cfgWf : s.cfg.wf = true
  memWf : Memory.wf s.mem = true
  peCount : s.pes.length = s.cfg.pes.length
  smmuCount : s.smmus.length = s.cfg.smmuCount
  curExists : s.cur < s.pes.length
  regsLegal : ∀ pe ∈ s.pes, pe.regs.legal s.cfg = true
  peTlb : ∀ pe ∈ s.pes, TlbWf s.cfg pe.mmu.tlb
  smmuTlb : ∀ m ∈ s.smmus, TlbWf s.cfg m.tlb
  pendingWf : ∀ p, ∀ op ∈ (s.pe p).pending, OpWf p op
  pendingNodup : ∀ p, (s.pe p).pending.Nodup

/-- A step does not stop the machine with a fault. -/
def Safe (s : State) : Prop := ∀ f, step s ≠ .fault f

/-! ### The conditions of the rules, as propositions over the fields -/

/-- "EL2 is implemented and enabled in the current Security state", by the formula of 10_state.md R24. -/
abbrev EL2On (cfg : Config) (r : PeRegs) : Prop :=
  cfg.haveEL2 = true ∧ (cfg.haveEL3 = false ∨ r.scr.ns = true ∨ r.scr.eel2 = true)

/-- `IsHCRXEL2Enabled()`, by the formula of 10_state.md R25. -/
abbrev HcrxOn (cfg : Config) (r : PeRegs) : Prop :=
  cfg.featHCX = true ∧ (cfg.haveEL3 = false ∨ r.scr.hxen = true) ∧ EL2On cfg r

/-- `HCR_EL2.TTLB` or `HCR_EL2.TTLBIS` traps (60_exceptions.md R86, rows 3 and 4). -/
abbrev CoarseTrap (cfg : Config) (r : PeRegs) : Prop :=
  EL2On cfg r ∧ (r.hcr.ttlb = true ∨ r.hcr.ttlbis = true)

/-- The conditions of the fine-grained trap that both instructions share (60_exceptions.md R86, rows 5 and 6). -/
abbrev FineTrap (cfg : Config) (r : PeRegs) : Prop :=
  EL2On cfg r ∧ cfg.featFGT = true ∧ (cfg.haveEL3 = false ∨ r.scr.fgten = true) ∧ r.hfgitr.tlbivale1is = true

/-- `TLBI VALE1IS` at EL1 traps to EL2 (60_exceptions.md R86, rows 3, 4 and 5). -/
abbrev PlainTraps (cfg : Config) (r : PeRegs) : Prop := CoarseTrap cfg r ∨ FineTrap cfg r

/-- `TLBI VALE1ISNXS` at EL1 traps to EL2 (60_exceptions.md R86, rows 3, 4 and 6). -/
abbrev NxsTraps (cfg : Config) (r : PeRegs) : Prop :=
  CoarseTrap cfg r ∨ (FineTrap cfg r ∧ cfg.featHCX = true ∧ (¬HcrxOn cfg r ∨ r.hcrx.fgtnxs = false))

/-- `SCR_EL3.{NSE, NS}` is the reserved `{1, 0}` where it indicates the Security state (10_state.md R26). -/
abbrev NoSecurityState (cfg : Config) (r : PeRegs) : Prop :=
  cfg.haveEL3 = true ∧ cfg.featRME = true ∧ r.scr.nse = true ∧ r.scr.ns = false

/-- The Security state is `sec` (10_state.md R26). -/
abbrev SecurityIs (cfg : Config) (r : PeRegs) (sec : SecurityState) : Prop :=
  (cfg.haveEL3 = false → sec = cfg.securityStateNoEL3)
    ∧ (cfg.haveEL3 = true → cfg.featRME = false → r.scr.ns = false → sec = .secure)
    ∧ (cfg.haveEL3 = true → cfg.featRME = false → r.scr.ns = true → sec = .nonSecure)
    ∧ (cfg.haveEL3 = true → cfg.featRME = true → r.scr.nse = false → r.scr.ns = false → sec = .secure)
    ∧ (cfg.haveEL3 = true → cfg.featRME = true → r.scr.nse = false → r.scr.ns = true → sec = .nonSecure)
    ∧ (cfg.haveEL3 = true → cfg.featRME = true → r.scr.nse = true → r.scr.ns = true → sec = .realm)

/-- The value of the operand `<Xt>`: register `t`, and zero for number 31 (10_state.md R15). -/
abbrev OperandIs (r : PeRegs) (t : Nat) (xt : DWord) : Prop :=
  (∀ h : t < 31, xt = r.x[t]) ∧ (t = 31 → xt = 0)

/-- The three operand fields of a record are those of the value `xt` (30_encoding.md R61): bits 63:48, 47:44, 43:0. -/
abbrev FieldsOf (xt : DWord) (op : TlbiOp) : Prop :=
  op.asid.toNat = xt.toNat / 2 ^ 48
    ∧ op.ttl.toNat = xt.toNat / 2 ^ 44 % 2 ^ 4
    ∧ op.vapg.toNat = xt.toNat % 2 ^ 44

/-- The record `op` is one that PE `p` builds in `s` for operand number `t` (40_tlbi_vale1is.md R73), its regime, VMID and
attribute apart. -/
def RecordOf (s : State) (p : Nat) (t : Nat) (op : TlbiOp) : Prop :=
  op.issuer = p
    ∧ SecurityIs s.cfg (s.pe p).regs op.security
    ∧ op.level = .last
    ∧ (∃ xt, OperandIs (s.pe p).regs t xt ∧ FieldsOf xt op)
    ∧ (op.eel2 = true ↔ s.cfg.haveEL3 = true ∧ (s.pe p).regs.scr.eel2 = true)
    ∧ op.peEel2.length = s.pes.length
    ∧ (∀ q, q < s.pes.length → op.peEel2.getD q false = (s.pe q).regs.scr.eel2)

/-- The VMID argument for the EL1&0 regime (40_tlbi_vale1is.md R72): the current VMID where EL2 is enabled, else none. -/
abbrev VmidIs (cfg : Config) (r : PeRegs) (v : Option (BitVec 16)) : Prop :=
  (EL2On cfg r → v = some r.vmid) ∧ (¬EL2On cfg r → v = none)

/-- The regime and VMID of `Target(p)` (40_tlbi_vale1is.md R72): EL2&0 without VMID at EL2 and EL3 with EL2 enabled and
`HCR_EL2.{E2H, TGE} = {1, 1}`, else EL1&0 (the corners by D12, D13, D15: log 19, log 20, log 21). -/
abbrev TargetIs (cfg : Config) (r : PeRegs) (op : TlbiOp) : Prop :=
  let el20 := r.pstate.el ≠ .el1 ∧ EL2On cfg r ∧ r.hcr.e2h = true ∧ r.hcr.tge = true
  (el20 → op.regime = .el20 ∧ op.vmid = none) ∧ (¬el20 → op.regime = .el10 ∧ VmidIs cfg r op.vmid)

/-- The attribute an instruction gives its record (40_tlbi_vale1is.md R81, R82): `ExcludeXS` for the nXS variant, and for
`TLBI VALE1IS` exactly under the `FnXS` override at EL1. -/
def AttrIs (cfg : Config) (r : PeRegs) : Instr → XsAttr → Prop
  | .tlbiVale1is _, attr =>
    attr = .excludeXS ↔
      r.pstate.el = .el1 ∧ cfg.featXS = true ∧ cfg.featHCX = true ∧ HcrxOn cfg r ∧ r.hcrx.fnxs = true
  | .tlbiVale1isnxs _, attr => attr = .excludeXS

/-! ### Frames -/

/-- Nothing outside the executing PE's registers, pending operations and last outcome differs: the configuration, every
byte of memory, every other PE whole, every agent's TLB and accesses in flight, whose turn it is and the moves to come. -/
def SameElsewhere (s t : State) : Prop :=
  t.cfg = s.cfg
    ∧ (∀ a, Memory.read t.mem a = Memory.read s.mem a)
    ∧ t.smmus = s.smmus
    ∧ t.pes.length = s.pes.length
    ∧ (∀ q, q ≠ s.cur → t.pe q = s.pe q)
    ∧ (∀ a, t.mmu a = s.mmu a)
    ∧ t.cur = s.cur
    ∧ t.events = s.events

/-- The registers no exception entry and no instruction of this spec writes. -/
def SameControls (r r' : PeRegs) : Prop :=
  r'.x = r.x ∧ r'.hcr = r.hcr ∧ r'.scr = r.scr ∧ r'.hfgitr = r.hfgitr ∧ r'.hcrx = r.hcrx ∧ r'.vmid = r.vmid

/-- The executing PE of `s` has executed an instruction that made `op` pending: `pc` is 4 on, `op` is a new member of
`pendingTLBI`, and nothing else differs (10_state.md R16, R32, 40_tlbi_vale1is.md R83). -/
def Issued (s t : State) (op : TlbiOp) : Prop :=
  SameElsewhere s t
    ∧ SameControls (s.pe s.cur).regs (t.pe s.cur).regs
    ∧ (t.pe s.cur).regs.pstate = (s.pe s.cur).regs.pstate
    ∧ (∀ l, (t.pe s.cur).regs.bank l = (s.pe s.cur).regs.bank l)
    ∧ (t.pe s.cur).regs.pc = (s.pe s.cur).regs.pc + 4
    ∧ (t.pe s.cur).raised = (s.pe s.cur).raised
    ∧ (∀ o, o ∈ (t.pe s.cur).pending ↔ o ∈ (s.pe s.cur).pending ∨ o = op)
    ∧ t.freeCount = s.freeCount

/-- The executing PE of `s` has taken an exception to `target` (60_exceptions.md R89) with outcome `why` (R84, R85): the
saved registers are written, PSTATE and pc are those of the entry, and nothing else of that PE or of the machine differs,
the pending operations among it. -/
def Entered (s t : State) (target : ExcLevel) (why : Raised) : Prop :=
  SameElsewhere s t
    ∧ SameControls (s.pe s.cur).regs (t.pe s.cur).regs
    ∧ (t.pe s.cur).pending = (s.pe s.cur).pending
    ∧ (t.pe s.cur).raised = some why
    ∧ ((t.pe s.cur).regs.bank target).elr = (s.pe s.cur).regs.pc
    ∧ ((t.pe s.cur).regs.bank target).spsr = (s.pe s.cur).regs.pstate
    ∧ ((t.pe s.cur).regs.bank target).vbar = ((s.pe s.cur).regs.bank target).vbar
    ∧ (∀ l, l ≠ target → (t.pe s.cur).regs.bank l = (s.pe s.cur).regs.bank l)
    ∧ (t.pe s.cur).regs.pstate = ⟨target.toEL, true, true, true, true, true⟩
    ∧ ((s.pe s.cur).regs.pstate.el.toNat < target.toEL.toNat →
        (t.pe s.cur).regs.pc = ((s.pe s.cur).regs.bank target).vbar + 0x400)
    ∧ ((s.pe s.cur).regs.pstate.el = target.toEL → (s.pe s.cur).regs.pstate.spx = true →
        (t.pe s.cur).regs.pc = ((s.pe s.cur).regs.bank target).vbar + 0x200)
    ∧ ((s.pe s.cur).regs.pstate.el = target.toEL → (s.pe s.cur).regs.pstate.spx = false →
        (t.pe s.cur).regs.pc = ((s.pe s.cur).regs.bank target).vbar)

/-- Nothing differs but the TLB and accesses of agent `a`, and the move taken, which is used up with the later moves kept:
the configuration, every byte of memory, every register, pending operation and outcome of every PE, and every other agent's
TLB and accesses are the same. -/
def SameButMmu (s t : State) (a : AgentId) : Prop :=
  t.cfg = s.cfg
    ∧ (∀ addr, Memory.read t.mem addr = Memory.read s.mem addr)
    ∧ t.pes.length = s.pes.length ∧ t.smmus.length = s.smmus.length
    ∧ (∀ q, (t.pe q).regs = (s.pe q).regs ∧ (t.pe q).pending = (s.pe q).pending ∧ (t.pe q).raised = (s.pe q).raised)
    ∧ (∀ b, b ≠ a → t.mmu b = s.mmu b)
    ∧ t.cur = s.cur ∧ t.freeCount = s.freeCount ∧ t.events = s.events.tail

/-- Nothing an operation names is left with agent `a`: no required entry in its TLB, and no access in flight that uses one
and that completion waits for (20_memory.md R47, R48). -/
def NothingLeft (s : State) (op : TlbiOp) (a : AgentId) : Prop :=
  (∀ e ∈ (s.mmu a).tlb, required s.cfg op a e = false)
    ∧ (∀ m ∈ (s.mmu a).inflight, (op.attr = .allAttr ∨ m.xs = false) → ∀ e ∈ m.used, required s.cfg op a e = false)

/-- The agent exists in the state. -/
def State.hasAgent (s : State) : AgentId → Prop
  | .pe n => n < s.pes.length
  | .smmu n => n < s.smmus.length

/-- It is PE `p`'s turn: the next move names it, or no move is listed and it had the last turn. -/
def TurnOf (s : State) (p : Nat) : Prop :=
  (s.events = [] ∧ p = s.cur) ∨ (∃ rest, s.events = .instr p :: rest)

end Sys2Proof.Machine
end

