-- ==== Sys2Proof/Certificates/Slice0/Obligations.lean ====
section
/-! DEFINITION. Certificates/Slice0/Obligations.lean: the statements about the model, from the numbered rules of spec/. -/

open Sys2Proof Sys2Proof.Machine

/-! ### Encoding -/

/-- 30_encoding.md R57, R58: which tuples select each instruction, the register number carried along, and no other. -/
def Obligations.DecodeSelectsTheTwoTuples : Prop :=
  ∀ f : SysFields,
    (decodeFields f = .ok (.tlbiVale1is f.rt.toNat) ↔
        f.op0 = 0b01#2 ∧ f.op1 = 0b000#3 ∧ f.crn = 0b1000#4 ∧ f.crm = 0b0011#4 ∧ f.op2 = 0b101#3)
      ∧ (decodeFields f = .ok (.tlbiVale1isnxs f.rt.toNat) ↔
        f.op0 = 0b01#2 ∧ f.op1 = 0b000#3 ∧ f.crn = 0b1001#4 ∧ f.crm = 0b0011#4 ∧ f.op2 = 0b101#3)
      ∧ (∀ i, decodeFields f = .ok i → i = .tlbiVale1is f.rt.toNat ∨ i = .tlbiVale1isnxs f.rt.toNat)

/-- Decode and encode agree, on the word, on its bytes in memory whatever follows them, and through the opcode table's
numbering (30_encoding.md R59, R60, R71; the word layout and byte order are PRESUMED, log 9 and log 10). -/
def Obligations.DecodeOfEncodeIsTheInstruction : Prop :=
  ∀ i : Instr, i.wf = true →
    decodeWord (encode i) = .ok i
      ∧ (∀ rest, decodeBytes (bytesOfWord (encode i) ++ rest) = .ok i)
      ∧ decodeTableWord 32 (encode i).toNat = some i

/-- The decoder reads exactly the words of the opcode table's masks, and a word it reads is the encoding of what it reads
(95_test_vectors.md section 2; layout PRESUMED, log 9). -/
def Obligations.DecodeMatchesTheTableMasks : Prop :=
  ∀ w : Word,
    ((∃ t, decodeWord w = .ok (.tlbiVale1is t)) ↔ w &&& 0xFFFFFFE0#32 = 0xD50883A0#32)
      ∧ ((∃ t, decodeWord w = .ok (.tlbiVale1isnxs t)) ↔ w &&& 0xFFFFFFE0#32 = 0xD50893A0#32)
      ∧ (∀ i, decodeWord w = .ok i → i.wf = true ∧ encode i = w)

/-- A few words of 95_test_vectors.md section 2, one of them as bytes in memory, decode as written there. PRESUMED: the
word layout (30_encoding.md R59, log 9), and the little-endian byte order of the bytes (20_memory.md R38, D4, log 10). -/
def Obligations.SpecWordsDecode : Prop :=
  decodeWord 0xD50883A0#32 = .ok (.tlbiVale1is 0)
    ∧ decodeWord 0xD50883BE#32 = .ok (.tlbiVale1is 30)
    ∧ decodeWord 0xD50883BF#32 = .ok (.tlbiVale1is 31)
    ∧ decodeWord 0xD50893A5#32 = .ok (.tlbiVale1isnxs 5)
    ∧ decodeBytes [0xB1#8, 0x93#8, 0x08#8, 0xD5#8] = .ok (.tlbiVale1isnxs 17)
    ∧ decodeWord 0xD50883C0#32 = .error .op2
    ∧ decodeWord 0xD50882A0#32 = .error .crm
    ∧ decodeWord 0xD508A3A0#32 = .error .crn
    ∧ decodeWord 0xD50983A0#32 = .error .op1
    ∧ decodeWord 0xD51883A0#32 = .error .op0
    ∧ decodeWord 0xD52883A0#32 = .error .returnsValue

/-! ### A step and its fetch -/

/-- A turn runs the decoded instruction: with no move listed the PE whose turn it was, else the PE the next move names.
`s1` is the state at the start of the turn. The pc advances inside exec. A PE waits only at a completion point
(20_memory.md R38, R39, R49, 30_encoding.md R71; log 10, log 26, log 29). -/
def Obligations.StepRunsTheDecodedInstruction : Prop :=
  ∀ (s s1 : State) (i : Instr) (bs : List Byte),
    ((s.events = [] ∧ s1 = s)
      ∨ (∃ p rest, s.events = .instr p :: rest ∧ p < s.pes.length ∧ s1 = { s with cur := p, events := rest })) →
    (s1.regs.pc ∉ s.cfg.completionPoint ∨ (s1.pe s1.cur).pending = []) →
    s1.regs.pc.toNat % 4 = 0 →
    Memory.readBytes s.mem s1.regs.pc.toNat 4 = some bs →
    decodeBytes bs = .ok i →
    step s = exec i s1

/-- Where a turn does not execute: it waits at a completion point with an operation pending (log 29), it is refused at a
misaligned pc (20_memory.md R39, D5), it faults where a byte of the word has no value (log 10), and it is refused at a word
outside the spec (30_encoding.md R71). -/
def Obligations.TurnsThatDoNotExecute : Prop :=
  ∀ (s s1 : State),
    ((s.events = [] ∧ s1 = s)
      ∨ (∃ p rest, s.events = .instr p :: rest ∧ p < s.pes.length ∧ s1 = { s with cur := p, events := rest })) →
    (s1.regs.pc ∈ s.cfg.completionPoint → (s1.pe s1.cur).pending ≠ [] → step s = .next s1)
      ∧ ((s1.regs.pc ∉ s.cfg.completionPoint ∨ (s1.pe s1.cur).pending = []) →
        (s1.regs.pc.toNat % 4 ≠ 0 → step s = .refused (.misalignedPc s1.regs.pc))
          ∧ (s1.regs.pc.toNat % 4 = 0 → Memory.readBytes s.mem s1.regs.pc.toNat 4 = none →
              ∃ a, s1.regs.pc.toNat ≤ a ∧ a < s1.regs.pc.toNat + 4 ∧ Memory.read s.mem a = none
                ∧ step s = .fault (.unwrittenMemory a))
          ∧ (∀ bs r, s1.regs.pc.toNat % 4 = 0 → Memory.readBytes s.mem s1.regs.pc.toNat 4 = some bs →
              decodeBytes bs = .error r → step s = .refused (.outsideSpec r)))

/-- An instruction placed by `withFetchWord` is the one the very next step executes, on a state that differs only in the
four bytes of program text at the pc rounded down to a multiple of 4, in the pc if it was misaligned, and in a completion
point that stood there (the model's interface, log 35). -/
def Obligations.PlacedWordRunsNext : Prop :=
  ∀ (s : State) (nbits w : Nat) (i : Instr), s.cur < s.pes.length → decodeTableWord nbits w = some i →
    ∃ t pc, pc.toNat = s.regs.pc.toNat / 4 * 4
      ∧ step (s.withFetchWord nbits w) = exec i t
      ∧ t.pe s.cur = { s.pe s.cur with regs := { s.regs with pc := pc } }
      ∧ Memory.readBytes t.mem pc.toNat 4 = some (bytesOfWord (tableWord nbits w))
      ∧ (∀ q, q ≠ s.cur → t.pe q = s.pe q)
      ∧ t.pes.length = s.pes.length ∧ t.smmus = s.smmus ∧ t.cur = s.cur ∧ t.events = s.events
      ∧ t.freeCount = s.freeCount
      ∧ (∀ a, a < pc.toNat ∨ pc.toNat + 4 ≤ a → Memory.read t.mem a = Memory.read s.mem a)
      ∧ t.cfg = { s.cfg with completionPoint := s.cfg.completionPoint.filter (fun a => a != pc) }

/-! ### The two instructions executed -/

/-- 40_tlbi_vale1is.md R81, the EL1 arm with no trap (R72, R73): `TLBI VALE1IS` makes one record pending, for the EL1&0
regime, with the VMID where EL2 is enabled, `ExcludeXS` exactly under the `FnXS` override; and changes nothing else.
Choices it rests on: EL1&0 whatever `{E2H, TGE}` hold (D13, log 20), no VMID where EL2 is not enabled (D15, log 21), pc + 4
and its wrap (log 8), the formulas of `EL2On`, `HcrxOn` and the Security state (log 17, log 18). -/
def Obligations.Vale1isRunsAtEl1 : Prop :=
  ∀ (t : Nat) (s : State), t < 32 → s.cur < s.pes.length → s.regs.pstate.el = .el1 →
    ¬PlainTraps s.cfg s.regs → ¬NoSecurityState s.cfg s.regs →
    ∃ op s', exec (.tlbiVale1is t) s = .next s'
      ∧ Issued s s' op ∧ RecordOf s s.cur t op
      ∧ op.regime = .el10 ∧ VmidIs s.cfg s.regs op.vmid
      ∧ (op.attr = .excludeXS ↔
          s.cfg.featXS = true ∧ s.cfg.featHCX = true ∧ HcrxOn s.cfg s.regs ∧ s.regs.hcrx.fnxs = true)

/-- 40_tlbi_vale1is.md R81, the EL2 and EL3 arms (R72, R73): the EL2&0 regime and no VMID under `{E2H, TGE} = {1, 1}` with
EL2 enabled, else the EL1&0 regime; always `AllAttr`. Choices it rests on: the EL2-enabled guard at EL3 under {1, 1} (C3,
D12, where the spec would rather a model refuse: log 19), no VMID where EL2 is not enabled (D15, log 21), pc + 4 and its
wrap (log 8), the formulas of log 17 and log 18. -/
def Obligations.Vale1isRunsAtEl2AndEl3 : Prop :=
  ∀ (t : Nat) (s : State), t < 32 → s.cur < s.pes.length →
    (s.regs.pstate.el = .el2 ∨ s.regs.pstate.el = .el3) → ¬NoSecurityState s.cfg s.regs →
    ∃ op s', exec (.tlbiVale1is t) s = .next s'
      ∧ Issued s s' op ∧ RecordOf s s.cur t op ∧ op.attr = .allAttr
      ∧ ((EL2On s.cfg s.regs ∧ s.regs.hcr.e2h = true ∧ s.regs.hcr.tge = true) → op.regime = .el20 ∧ op.vmid = none)
      ∧ (¬(EL2On s.cfg s.regs ∧ s.regs.hcr.e2h = true ∧ s.regs.hcr.tge = true) →
          op.regime = .el10 ∧ VmidIs s.cfg s.regs op.vmid)

/-- 40_tlbi_vale1is.md R82, the EL1 arm with no trap: as `TLBI VALE1IS`, always `ExcludeXS`. Choices it
rests on: EL1&0 whatever `{E2H, TGE}` hold (D13, log 20), no VMID where EL2 is not enabled (D15, log 21), pc + 4 and its
wrap (log 8), the formulas of log 17 and log 18. Without FEAT_XS see `NxsUndefinedWithoutXS`. -/
def Obligations.Vale1isnxsRunsAtEl1 : Prop :=
  ∀ (t : Nat) (s : State), t < 32 → s.cur < s.pes.length → s.cfg.featXS = true → s.regs.pstate.el = .el1 →
    ¬NxsTraps s.cfg s.regs → ¬NoSecurityState s.cfg s.regs →
    ∃ op s', exec (.tlbiVale1isnxs t) s = .next s'
      ∧ Issued s s' op ∧ RecordOf s s.cur t op
      ∧ op.regime = .el10 ∧ VmidIs s.cfg s.regs op.vmid ∧ op.attr = .excludeXS

/-- 40_tlbi_vale1is.md R82, the EL2 and EL3 arms. Choices it rests on: at EL3 with EL2 not enabled {1, 1} acts on EL1&0 (C3,
D12, log 19), no VMID where EL2 is not enabled (D15, log 21), pc + 4 and its wrap (log 8), the formulas of log 17 and
log 18. -/
def Obligations.Vale1isnxsRunsAtEl2AndEl3 : Prop :=
  ∀ (t : Nat) (s : State), t < 32 → s.cur < s.pes.length → s.cfg.featXS = true →
    (s.regs.pstate.el = .el2 ∨ s.regs.pstate.el = .el3) → ¬NoSecurityState s.cfg s.regs →
    ∃ op s', exec (.tlbiVale1isnxs t) s = .next s'
      ∧ Issued s s' op ∧ RecordOf s s.cur t op ∧ op.attr = .excludeXS
      ∧ ((EL2On s.cfg s.regs ∧ s.regs.hcr.e2h = true ∧ s.regs.hcr.tge = true) → op.regime = .el20 ∧ op.vmid = none)
      ∧ (¬(EL2On s.cfg s.regs ∧ s.regs.hcr.e2h = true ∧ s.regs.hcr.tge = true) →
          op.regime = .el10 ∧ VmidIs s.cfg s.regs op.vmid)

/-- 30_encoding.md R61: in the record either instruction makes pending, `ASID` [63:48], `TTL` [47:44] and `VA[55:12]`
[43:0] tile the 64 bits of `x[t]`, and the address compared is the last of them with twelve zero bits appended. -/
def Obligations.OperandFieldsTileTheRegister : Prop :=
  ∀ (i : Instr) (s t : State) (op : TlbiOp), s.cur < s.pes.length → exec i s = .next t →
    op ∉ (s.pe s.cur).pending → op ∈ (t.pe s.cur).pending →
    op.asid.toNat * 2 ^ 48 + op.ttl.toNat * 2 ^ 44 + op.vapg.toNat = (s.regs.readX i.rt).toNat
      ∧ (va56 op.vapg).toNat = op.vapg.toNat * 2 ^ 12

/-! ### Exceptions -/

/-- 60_exceptions.md R84, R87: at EL0 both instructions raise Undefined, whatever any control register holds; the entry
(R89, PRESUMED, log 13) is to EL2 when EL2 is enabled and `TGE` is 1, else to EL1, with class 0 and nothing of the
instruction in the syndrome. The IL bit is free (log 14): nothing is said of it. -/
def Obligations.UndefinedAtEl0 : Prop :=
  ∀ (i : Instr) (s : State), s.cur < s.pes.length → s.regs.pstate.el = .el0 →
    ∃ l s', exec i s = .next s' ∧ Entered s s' l (.undefined .el0)
      ∧ (EL2On s.cfg s.regs ∧ s.regs.hcr.tge = true → l = .el2)
      ∧ (¬(EL2On s.cfg s.regs ∧ s.regs.hcr.tge = true) → l = .el1)
      ∧ ((s'.pe s.cur).regs.bank l).esr.extractLsb' 26 6 = 0
      ∧ ((s'.pe s.cur).regs.bank l).esr.extractLsb' 0 25 = 0

/-- 60_exceptions.md R84, R86 row 1, R87: without FEAT_XS the nXS variant raises Undefined at every level, before any
other test; above EL0 it is taken to the current level (R89, PRESUMED, log 13). -/
def Obligations.NxsUndefinedWithoutXS : Prop :=
  ∀ (t : Nat) (s : State), s.cur < s.pes.length → s.cfg.featXS = false →
    ∃ l s', exec (.tlbiVale1isnxs t) s = .next s' ∧ Entered s s' l (.undefined s.regs.pstate.el)
      ∧ (s.regs.pstate.el ≠ .el0 → l.toEL = s.regs.pstate.el)
      ∧ ((s'.pe s.cur).regs.bank l).esr.extractLsb' 26 6 = 0
      ∧ ((s'.pe s.cur).regs.bank l).esr.extractLsb' 0 25 = 0

/-- 60_exceptions.md R85, R86 rows 3 to 5: `TLBI VALE1IS` at EL1 under a trap control is trapped to EL2 with code 0x18, and
the syndrome is 0x621A2006 with the register number in bits [9:5] (entry and syndrome PRESUMED, log 13, log 14). -/
def Obligations.Vale1isTrapsToEl2 : Prop :=
  ∀ (t : Nat) (s : State), t < 32 → s.cur < s.pes.length → s.regs.pstate.el = .el1 → PlainTraps s.cfg s.regs →
    ∃ s', exec (.tlbiVale1is t) s = .next s'
      ∧ Entered s s' .el2 (.systemAccessTrap .el1 .el2 0x18 (.tlbiVale1is t))
      ∧ (s'.pe s.cur).regs.exc2.esr.toNat = 0x621A2006 + 32 * t
      ∧ s'.freeCount = s.freeCount

/-- 60_exceptions.md R85, R86 rows 3, 4 and 6: the same for `TLBI VALE1ISNXS`, syndrome 0x621A2406. -/
def Obligations.Vale1isnxsTrapsToEl2 : Prop :=
  ∀ (t : Nat) (s : State), t < 32 → s.cur < s.pes.length → s.cfg.featXS = true → s.regs.pstate.el = .el1 →
    NxsTraps s.cfg s.regs →
    ∃ s', exec (.tlbiVale1isnxs t) s = .next s'
      ∧ Entered s s' .el2 (.systemAccessTrap .el1 .el2 0x18 (.tlbiVale1isnxs t))
      ∧ (s'.pe s.cur).regs.exc2.esr.toNat = 0x621A2406 + 32 * t
      ∧ s'.freeCount = s.freeCount

/-- 10_state.md R26: an instruction stops in one case only, at EL1 or above with `{NSE, NS} = {1, 0}` under FEAT_RME; and
it does stop there wherever it raises no exception: at EL2 and EL3, and untrapped at EL1. It never faults. The model's
choices: an exception is entered and ends no run, where R84, R85, D16 and D17 end it (log 13); `{1, 0}` is refused
(log 18). -/
def Obligations.ExecStopsOnlyWithoutSecurityState : Prop :=
  ∀ s : State,
    (∀ i f, exec i s ≠ .fault f)
      ∧ (∀ i r, exec i s = .refused r →
          r = .reservedSecurityState ∧ NoSecurityState s.cfg s.regs ∧ s.regs.pstate.el ≠ .el0)
      ∧ (NoSecurityState s.cfg s.regs → ∀ t,
          ((s.regs.pstate.el = .el2 ∨ s.regs.pstate.el = .el3
              ∨ (s.regs.pstate.el = .el1 ∧ ¬PlainTraps s.cfg s.regs)) →
            exec (.tlbiVale1is t) s = .refused .reservedSecurityState)
          ∧ (s.cfg.featXS = true →
            (s.regs.pstate.el = .el2 ∨ s.regs.pstate.el = .el3
              ∨ (s.regs.pstate.el = .el1 ∧ ¬NxsTraps s.cfg s.regs)) →
            exec (.tlbiVale1isnxs t) s = .refused .reservedSecurityState))

/-- 40_tlbi_vale1is.md R83, 20_memory.md R37: whatever an instruction does, no general register, control register or byte
of memory changes, nor any TLB, nor any other PE; it has executed or it has entered an exception. The form of the entry is
60_exceptions.md R89's, PRESUMED and not the source's (log 13). -/
def Obligations.InstructionsChangeNothingElse : Prop :=
  ∀ (i : Instr) (s t : State), s.cur < s.pes.length → exec i s = .next t →
    SameElsewhere s t ∧ SameControls s.regs (t.pe s.cur).regs
      ∧ ((∃ op, Issued s t op) ∨ (∃ l why, Entered s t l why))

/-- 40_tlbi_vale1is.md R82, difference 3: without FEAT_HCX the fine-grained trap takes `TLBI VALE1IS` and never the nXS
variant. That the trapped PE goes on at EL2 is the exception entry of 60_exceptions.md R89, PRESUMED, which the model takes
where D17 ends the run (log 13). -/
def Obligations.FineTrapWithoutHcxSparesNxs : Prop :=
  ∀ (t : Nat) (s : State), s.cur < s.pes.length → s.regs.pstate.el = .el1 → s.cfg.featXS = true →
    s.cfg.featHCX = false → FineTrap s.cfg s.regs → ¬CoarseTrap s.cfg s.regs → ¬NoSecurityState s.cfg s.regs →
    (∃ s', exec (.tlbiVale1is t) s = .next s' ∧ (s'.pe s.cur).regs.pstate.el = .el2
        ∧ (s'.pe s.cur).pending = (s.pe s.cur).pending)
      ∧ (∃ s' op, exec (.tlbiVale1isnxs t) s = .next s' ∧ Issued s s' op)

/-- 40_tlbi_vale1is.md R82, last sentences: under the `FnXS` override the instruction without nXS does at EL1 what the nXS
variant does, whole. -/
def Obligations.FnxsOverrideActsAsNxs : Prop :=
  ∀ (t : Nat) (s : State), s.regs.pstate.el = .el1 → ¬PlainTraps s.cfg s.regs → s.cfg.featXS = true →
    s.cfg.featHCX = true → HcrxOn s.cfg s.regs → s.regs.hcrx.fnxs = true →
    exec (.tlbiVale1is t) s = exec (.tlbiVale1isnxs t) s

/-- 10_state.md R22: `FnXS` is read by `TLBI VALE1IS` at EL1 only. Changing it changes nothing that the nXS variant does,
nor what `TLBI VALE1IS` does at another level. -/
def Obligations.FnxsIsReadByVale1isAtEl1Only : Prop :=
  ∀ (i : Instr) (s : State) (b : Bool), s.cur < s.pes.length →
    ((∃ t, i = .tlbiVale1isnxs t) ∨ s.regs.pstate.el ≠ .el1) →
    let flip := fun u : State =>
      u.setPe s.cur { u.pe s.cur with
        regs := { (u.pe s.cur).regs with hcrx := { (u.pe s.cur).regs.hcrx with fnxs := b } } }
    (∀ u, exec i s = .next u → exec i (flip s) = .next (flip u))
      ∧ (∀ r, exec i s = .refused r → exec i (flip s) = .refused r)

/-- "Both variants perform the same invalidation" (40_tlbi_vale1is.md R82): where both execute and `FnXS` does not
interfere, they make records pending that differ in the attribute alone, and require the same entries of the same agents. -/
def Obligations.BothVariantsSameInvalidation : Prop :=
  ∀ (t : Nat) (s : State), s.cfg.featXS = true → ¬NoSecurityState s.cfg s.regs →
    (s.regs.pstate.el = .el2 ∨ s.regs.pstate.el = .el3
      ∨ (s.regs.pstate.el = .el1 ∧ ¬PlainTraps s.cfg s.regs ∧ ¬NxsTraps s.cfg s.regs
          ∧ ¬(HcrxOn s.cfg s.regs ∧ s.regs.hcrx.fnxs = true))) →
    ∃ op, op.attr = .allAttr
      ∧ exec (.tlbiVale1is t) s = .next (s.addOp op)
      ∧ exec (.tlbiVale1isnxs t) s = .next (s.addOp { op with attr := .excludeXS })
      ∧ scope s.cfg { op with attr := .excludeXS } = scope s.cfg op
      ∧ ∀ a e, required s.cfg { op with attr := .excludeXS } a e = required s.cfg op a e

/-- 20_memory.md R37: neither instruction reads memory. On another memory each does the same. -/
def Obligations.InstructionsReadNoMemory : Prop :=
  ∀ (i : Instr) (s : State) (m : Memory),
    (∀ u, exec i s = .next u → exec i { s with mem := m } = .next { u with mem := m })
      ∧ (∀ r, exec i s = .refused r → exec i { s with mem := m } = .refused r)

/-- 30_encoding.md R68: "No value of the operand makes either instruction fault". On any other general registers an
instruction that goes on goes on, and enters an exception exactly where it did. -/
def Obligations.NoOperandValueStops : Prop :=
  ∀ (i : Instr) (s t : State) (x : Vector DWord 31), s.cur < s.pes.length → exec i s = .next t →
    ∃ t', exec i (s.setPe s.cur { s.pe s.cur with regs := { s.regs with x := x } }) = .next t'
      ∧ (t'.pe s.cur).regs.pc = (t.pe s.cur).regs.pc
      ∧ (t'.pe s.cur).regs.pstate = (t.pe s.cur).regs.pstate
      ∧ (t'.pe s.cur).raised = (t.pe s.cur).raised

/-- 60_exceptions.md R93: of the other PEs only `SCR_EL3.EEL2` can matter. Two states that agree on the executing PE, on
the configuration and on every PE's `EEL2` have the same record made pending, or the same exception entered. -/
def Obligations.OnlyRemoteEel2Matters : Prop :=
  ∀ (i : Instr) (s s2 t : State), s.cur < s.pes.length → s2.cfg = s.cfg → s2.cur = s.cur →
    s2.pes.length = s.pes.length → s2.pe s.cur = s.pe s.cur → s2.freeCount = s.freeCount →
    (∀ q, q < s.pes.length → (s2.pe q).regs.scr.eel2 = (s.pe q).regs.scr.eel2) →
    exec i s = .next t → ∃ t2, exec i s2 = .next t2 ∧ t2.pe s.cur = t.pe s.cur

/-! ### Which entries are required to go -/

/-- `Required` of 40_tlbi_vale1is.md R78, all its conditions written out (R74 to R77, R80). -/
def Obligations.RequiredIsAllItsConditions : Prop :=
  ∀ (cfg : Config) (op : TlbiOp) (a : AgentId) (e : TlbEntry),
    let note := cfg.secureEL2Note = true ∧ op.security = .secure ∧ op.regime = .el10
    (required cfg op a e = true ↔
      (e.stage1 = true ∧ (e.d128 = false ∨ (cfg.featD128 = true ∧ op.ttl.toNat / 4 = 0)))
        ∧ e.vaBase.toNat / 2 ^ e.log2size = (op.vapg.toNat * 4096) / 2 ^ e.log2size
        ∧ (e.final = true ∧ (e.nG = false ∨ e.asid = op.asid))
        ∧ (e.security = op.security ∧ e.regime = op.regime
            ∧ (op.regime = .el20 ∨ (∃ v, op.vmid = some v ∧ e.vmid = v)
                ∨ (op.vmid = none ∧ ((∃ n, a = .pe n) ∨ ¬note ∨ e.vmid = 0))))
        ∧ ((cfg.featTTL = false ∧ op.ttl = 0)
            ∨ (cfg.featTTL = true ∧ (ttlInfo cfg.featLPA2 op.ttl = none
                ∨ ttlInfo cfg.featLPA2 op.ttl = some (e.granule, e.level))))
        ∧ (¬note ∨ cfg.haveEL3 = false ∨ (∃ n, a = .smmu n) ∨ a = .pe op.issuer
            ∨ (∃ n, a = .pe n ∧ op.peEel2.getD n false = op.eel2)))

/-- 30_encoding.md R63, R64: the TTL table, `TTL<3:2>` the granule and `TTL<1:0>` the level. -/
def Obligations.TtlFieldGivesGranuleAndLevel : Prop :=
  ∀ (cfg : Config) (op : TlbiOp), cfg.featTTL = true →
    (op.ttl.toNat / 4 = 0 → info cfg op = .anyLevel)
      ∧ (op.ttl.toNat / 4 = 1 → op.ttl.toNat % 4 = 0 →
          info cfg op = if cfg.featLPA2 then .leaf .g4K 0 else .anyLevel)
      ∧ (op.ttl.toNat / 4 = 2 → op.ttl.toNat % 4 = 0 → info cfg op = .anyLevel)
      ∧ (op.ttl.toNat / 4 = 2 → op.ttl.toNat % 4 = 1 →
          info cfg op = if cfg.featLPA2 then .leaf .g16K 1 else .anyLevel)
      ∧ (op.ttl.toNat / 4 = 3 → op.ttl.toNat % 4 = 0 → info cfg op = .anyLevel)
      ∧ (∀ l : Fin 4, op.ttl.toNat % 4 = l.val → 1 ≤ l.val →
          (op.ttl.toNat / 4 = 1 → info cfg op = .leaf .g4K l)
            ∧ (op.ttl.toNat / 4 = 2 → 2 ≤ l.val → info cfg op = .leaf .g16K l)
            ∧ (op.ttl.toNat / 4 = 3 → info cfg op = .leaf .g64K l))

/-- 30_encoding.md R63, last sentence, read entry by entry (D27, log 30), and R65: an entry of another granule or level
than the TTL field names need not go, and without FEAT_TTL a non-zero field requires nothing of any entry (D10, log 30). -/
def Obligations.IncorrectTtlRequiresNothing : Prop :=
  ∀ (cfg : Config) (op : TlbiOp) (a : AgentId) (e : TlbEntry),
    (∀ g l, cfg.featTTL = true → ttlInfo cfg.featLPA2 op.ttl = some (g, l) → (e.granule ≠ g ∨ e.level ≠ l) →
        required cfg op a e = false)
      ∧ (cfg.featTTL = false → op.ttl ≠ 0 → required cfg op a e = false)

/-- 40_tlbi_vale1is.md R76: only entries from the final level of lookup; non-global ones only with the specified ASID, all
16 bits compared; global ones whatever the ASID. -/
def Obligations.LeafEntriesOfTheAsidOrGlobal : Prop :=
  ∀ (cfg : Config) (op : TlbiOp) (a : AgentId) (e : TlbEntry),
    (leafAsid e op = true ↔ e.final = true ∧ (e.nG = false ∨ e.asid = op.asid))
      ∧ (e.final = false → required cfg op a e = false)
      ∧ (e.nG = true → e.asid ≠ op.asid → required cfg op a e = false)
      ∧ (e.nG = false → ∀ asid, required cfg { op with asid := asid } a e = required cfg op a e)

/-- 20_memory.md R45: under the 4KB granule all bits of the VA field are used (a 4KB page is named by all 44); under 16KB
bits [1:0] and under 64KB bits [3:0] are ignored. -/
def Obligations.LowVaBitsByGranule : Prop :=
  ∀ (cfg : Config) (op : TlbiOp) (a : AgentId) (e : TlbEntry) (v : BitVec 44), e.wf cfg = true →
    (e.granule = .g4K → e.log2size = 12 → required cfg op a e = true → op.vapg.toNat * 4096 = e.vaBase.toNat)
      ∧ (e.granule = .g16K → v.toNat / 4 = op.vapg.toNat / 4 →
          required cfg { op with vapg := v } a e = required cfg op a e)
      ∧ (e.granule = .g64K → v.toNat / 16 = op.vapg.toNat / 16 →
          required cfg { op with vapg := v } a e = required cfg op a e)

/-- An entry of a regime with 32-bit addresses is not required to go by an operation whose operand has a non-zero bit in
VA[55:32]. The source leaves it open; this is the spec's own decision D26 (20_memory.md R46; DESIGN CHOICE, log 31). -/
def Obligations.UpperVaBitsMissShortRegimes : Prop :=
  ∀ (cfg : Config) (op : TlbiOp) (a : AgentId) (e : TlbEntry),
    e.vaBase.toNat < 2 ^ 32 → e.log2size ≤ 32 → 2 ^ 20 ≤ op.vapg.toNat → required cfg op a e = false

/-- 20_memory.md R51: the scope is the Inner Shareable domain of the issuer, the issuer itself included; completion needs
every agent of it and no other. -/
def Obligations.ScopeIsTheInnerShareableDomain : Prop :=
  (∀ (cfg : Config) (op : TlbiOp), op.issuer < cfg.pes.length → AgentId.pe op.issuer ∈ scope cfg op)
    ∧ (∀ (cfg : Config) (op : TlbiOp) (a : AgentId), a ∈ scope cfg op ↔
        cfg.hasAgent a = true ∧ (a = .pe op.issuer ∨ a ∈ (cfg.pes.getD op.issuer default).ish))
    ∧ (∀ (s : State) (op : TlbiOp) (a : AgentId) (e : TlbEntry), a ∈ scope s.cfg op → e ∈ (s.mmu a).tlb →
        required s.cfg op a e = true → s.canComplete op = false)
    ∧ (∀ (s s2 : State) (op : TlbiOp), s2.cfg = s.cfg → (∀ a ∈ scope s.cfg op, s2.mmu a = s.mmu a) →
        s2.canComplete op = s.canComplete op)

/-- 20_memory.md R52: for the Secure EL1&0 regime under the Note, a PE other than the issuer with the other `EEL2` is
required to drop nothing; a System MMU is never excused, and without a VMID argument has to drop only entries of VMID 0,
with one only entries of that VMID. -/
def Obligations.SecureEl2NoteExcuses : Prop :=
  ∀ (cfg : Config) (op : TlbiOp) (e : TlbEntry), cfg.secureEL2Note = true → op.security = .secure → op.regime = .el10 →
    (∀ n, cfg.haveEL3 = true → n ≠ op.issuer → op.peEel2.getD n false ≠ op.eel2 → required cfg op (.pe n) e = false)
      ∧ (∀ n b l, required cfg { op with eel2 := b, peEel2 := l } (.smmu n) e = required cfg op (.smmu n) e)
      ∧ (∀ n, op.vmid = none → e.vmid ≠ 0 → required cfg op (.smmu n) e = false)
      ∧ (∀ n, op.vmid = none → e.vmid = 0 → required cfg op (.smmu n) e = required cfg op (.pe op.issuer) e)
      ∧ (∀ n v, op.vmid = some v → e.vmid ≠ v → required cfg op (.smmu n) e = false)

/-! ### Completion -/

/-- 20_memory.md R48: a state in which the operation can complete with `AllAttr` is one in which it can with `ExcludeXS`,
not the reverse; and with no access of XS attribute 1 in flight in scope the two agree (40_tlbi_vale1is.md R82). -/
def Obligations.ExcludeXsCompletesNoLater : Prop :=
  (∀ (s : State) (op : TlbiOp), s.canComplete { op with attr := .allAttr } = true →
      s.canComplete { op with attr := .excludeXS } = true)
    ∧ (∃ (s : State) (op : TlbiOp), s.canComplete { op with attr := .excludeXS } = true
        ∧ s.canComplete { op with attr := .allAttr } = false)
    ∧ (∀ (s : State) (op : TlbiOp), (∀ a ∈ scope s.cfg op, ∀ m ∈ (s.mmu a).inflight, m.xs = false) →
        s.canComplete { op with attr := .excludeXS } = s.canComplete { op with attr := .allAttr })

/-- 40_tlbi_vale1is.md R79, 20_memory.md R47, R48: what the two moves of an operation do. An agent of the scope that acts on a pending
operation is left with exactly its entries that are not required; an operation with nothing left in scope completes. -/
def Obligations.InvalidateAndCompleteMoves : Prop :=
  (∀ (s : State) (a : AgentId) (p : Nat) (op : TlbiOp) (rest : List Event),
      s.events = .invalidate a p op :: rest → op ∈ (s.pe p).pending → a ∈ scope s.cfg op → s.hasAgent a →
      ∃ t, step s = .next t
        ∧ (∀ e, e ∈ (t.mmu a).tlb ↔ e ∈ (s.mmu a).tlb ∧ required s.cfg op a e = false)
        ∧ (t.mmu a).inflight = (s.mmu a).inflight
        ∧ (∀ b, b ≠ a → t.mmu b = s.mmu b)
        ∧ (∀ q, (t.pe q).regs = (s.pe q).regs ∧ (t.pe q).pending = (s.pe q).pending))
    ∧ (∀ (s : State) (p : Nat) (op : TlbiOp) (rest : List Event),
      s.events = .complete p op :: rest → p < s.pes.length → (s.pe p).pending.Nodup →
      (∀ a ∈ scope s.cfg op, NothingLeft s op a) →
      ∃ t, step s = .next t
        ∧ (∀ o, o ∈ (t.pe p).pending ↔ o ∈ (s.pe p).pending ∧ o ≠ op)
        ∧ (∀ b, t.mmu b = s.mmu b)
        ∧ (∀ q, (t.pe q).regs = (s.pe q).regs))

/-- 20_memory.md R47, R48, 10_state.md R32: a pending operation stops being pending only by completing, and at that step
nothing it names is left with any agent of its scope. That completion needs the entries gone is the spec's decision D7
(log 28), the move the model's form (log 26). -/
def Obligations.OnlyCompletionEndsAnOperation : Prop :=
  ∀ (s t : State) (p : Nat) (op : TlbiOp), step s = .next t → op ∈ (s.pe p).pending → op ∉ (t.pe p).pending →
    (∃ rest, s.events = .complete p op :: rest) ∧ ∀ a ∈ scope t.cfg op, NothingLeft t op a

/-- 60_exceptions.md R92, 40_tlbi_vale1is.md R72, R73, R81, R82: an operation becomes pending only because its PE executed
one of the two instructions above EL0 on its own turn; the record is the one that PE's registers give at that moment, its
regime, VMID and attribute among it. The turn and the fetch are the model's (log 10, log 26), the corners of the target by
D12, D13, D15 (log 19, log 20, log 21). -/
def Obligations.OnlyPrivilegedInstructionsStartOperations : Prop :=
  ∀ (s t : State) (p : Nat) (op : TlbiOp), step s = .next t → op ∉ (s.pe p).pending → op ∈ (t.pe p).pending →
    TurnOf s p ∧ (s.pe p).regs.pstate.el ≠ .el0
      ∧ ∃ i bs, Memory.readBytes s.mem (s.pe p).regs.pc.toNat 4 = some bs ∧ decodeBytes bs = .ok i
          ∧ RecordOf s p i.rt op ∧ TargetIs s.cfg (s.pe p).regs op ∧ AttrIs s.cfg (s.pe p).regs i op.attr

/-- 10_state.md R29, 40_tlbi_vale1is.md R79: an entry leaves a TLB only by a drop of that agent or by a pending operation
that requires it there, and comes only by a fill; no instruction step changes any TLB. -/
def Obligations.TlbsChangeOnlyByTheirMoves : Prop :=
  ∀ (s t : State) (a : AgentId) (e : TlbEntry), step s = .next t →
    (e ∈ (s.mmu a).tlb → e ∉ (t.mmu a).tlb →
        (∃ rest, s.events = .drop a e :: rest)
          ∨ (∃ p op rest, s.events = .invalidate a p op :: rest ∧ op ∈ (s.pe p).pending ∧ a ∈ scope s.cfg op
              ∧ required s.cfg op a e = true))
      ∧ (e ∉ (s.mmu a).tlb → e ∈ (t.mmu a).tlb → ∃ rest, s.events = .fill a e :: rest ∧ e.wf s.cfg = true)

/-- 10_state.md R34, D1: no step changes the configuration, a byte of memory, or how many agents there are. -/
def Obligations.ConfigAndTextNeverChange : Prop :=
  ∀ s t : State, step s = .next t →
    t.cfg = s.cfg ∧ (∀ a, Memory.read t.mem a = Memory.read s.mem a)
      ∧ t.pes.length = s.pes.length ∧ t.smmus.length = s.smmus.length

/-- 10_state.md R14, 60_exceptions.md R93: a PE's registers change only on its own turn, by its return from an exception,
or by software running on it; a remote instruction never changes them. -/
def Obligations.RegistersChangeOnlyOnOwnMoves : Prop :=
  ∀ (s t : State) (p : Nat), step s = .next t → (t.pe p).regs ≠ (s.pe p).regs →
    TurnOf s p ∨ (∃ rest, s.events = .exceptionReturn p :: rest) ∨ (∃ r rest, s.events = .software p r :: rest)

/-- 20_memory.md R49, 70_reset_and_hazards.md R98: a turn of a PE at a completion point changes its registers only with
none of its operations pending. The parameter's form is the model's choice, and it holds back turns only, neither software
nor an exception return (log 27, log 29). -/
def Obligations.CompletionPointWaitsForCompletion : Prop :=
  ∀ (s t : State) (p : Nat), step s = .next t → TurnOf s p → (s.pe p).regs.pc ∈ s.cfg.completionPoint →
    (t.pe p).regs ≠ (s.pe p).regs → (s.pe p).pending = []

/-- 60_exceptions.md R90 (PRESUMED, log 16): a return straight after the entry restores PSTATE and goes back to the
instruction that raised the exception; pending operations stay. -/
def Obligations.ReturnUndoesEntry : Prop :=
  ∀ (i : Instr) (s t : State) (l : ExcLevel) (why : Raised), s.Inv → exec i s = .next t → Entered s t l why →
    ∃ u, step { t with events := [.exceptionReturn s.cur] } = .next u
      ∧ (u.pe s.cur).regs.pc = s.regs.pc ∧ (u.pe s.cur).regs.pstate = s.regs.pstate
      ∧ SameControls s.regs (u.pe s.cur).regs ∧ (u.pe s.cur).pending = (s.pe s.cur).pending

/-- A pending operation can be brought to completion: with no access in flight that it waits for, there are moves that end
it (40_tlbi_vale1is.md R79; that they do come is the fairness 70_reset_and_hazards.md R101 leaves to a claim). The moves are
the model's form (log 26), the completion condition the spec's decision D7 (log 28). -/
def Obligations.PendingOperationCanComplete : Prop :=
  ∀ (s : State) (p : Nat) (op : TlbiOp), s.Inv → op ∈ (s.pe p).pending →
    (∀ a ∈ scope s.cfg op, ∀ m ∈ (s.mmu a).inflight, waitsFor s.cfg op a m = false) →
    ∃ es t, Host.Core.run Sys2Proof.core es.length { s with events := es } = .next t
      ∧ op ∉ (t.pe p).pending ∧ ∀ a ∈ scope s.cfg op, NothingLeft t op a

/-! ### Reset and the invariant -/

/-- The invariant holds after reset of every configuration a machine can have, whatever its TLBs held before (the reset
values are the model's choices, log 2 to log 6). -/
def Obligations.InvariantHoldsAtReset : Prop :=
  ∀ cfg : Config, cfg.wf = true → (State.resetOf cfg).Inv

/-- Every step keeps the invariant: memory canonical, TLBs sets of entries within bounds, pending records well formed, every
PE at a level it can be at, instruction addresses aligned (10_state.md R16, R17, R27, R28, R32). -/
def Obligations.StepKeepsInvariant : Prop :=
  ∀ s t : State, s.Inv → step s = .next t → t.Inv

/-- After reset (10_state.md R35, by the spec's own decision D19): every PE is at `ResetPC` and the highest implemented
level, no operation is pending and no access is in flight. -/
def Obligations.ResetLeavesNothingPending : Prop :=
  ∀ (cfg : Config) (p : Nat), p < cfg.pes.length →
    ((State.resetOf cfg).pe p).regs.pc = cfg.resetPC
      ∧ (cfg.haveEL3 = true → ((State.resetOf cfg).pe p).regs.pstate.el = .el3)
      ∧ (cfg.haveEL3 = false → cfg.haveEL2 = true → ((State.resetOf cfg).pe p).regs.pstate.el = .el2)
      ∧ (cfg.haveEL3 = false → cfg.haveEL2 = false → ((State.resetOf cfg).pe p).regs.pstate.el = .el1)
      ∧ ((State.resetOf cfg).pe p).pending = []
      ∧ (∀ a, ((State.resetOf cfg).mmu a).inflight = [])

/-! ### Memory -/

/-- `MemRead` after `MemWrite` (00_scope.md R10, 20_memory.md R38, PRESUMED little-endian): the value written comes back,
every other byte reads as before, and the canonical form is kept. -/
def Obligations.MemReadAfterMemWrite : Prop :=
  ∀ (m m' : Memory) (addr : DWord) (n v : Nat), Memory.wf m = true → Memory.memWrite m addr n v = some m' →
    Memory.memRead m' addr n = some (v % 256 ^ n)
      ∧ (∀ a, a < addr.toNat ∨ addr.toNat + n ≤ a → Memory.read m' a = Memory.read m a)
      ∧ Memory.wf m' = true

/-- Memories in canonical form that read alike are equal: of the model's own form of the memory of 00_scope.md R10, which
the spec gives no form (log 10). -/
def Obligations.CanonicalMemoriesAreEqual : Prop :=
  ∀ m m' : Memory, Memory.wf m = true → Memory.wf m' = true → (∀ a, Memory.read m a = Memory.read m' a) → m = m'

/-! ### Memory accesses in flight -/

/-- 10_state.md R31, 20_memory.md R53: an access comes to be in flight only by a start of that agent, with every entry it
uses in the agent's TLB at that moment (DEDUCED, log 25), and stops being in flight only by its finish; each once. No
instruction, no fill or drop and no step of an operation adds or removes one. -/
def Obligations.AccessesChangeOnlyByTheirMoves : Prop :=
  ∀ (s t : State) (a : AgentId) (m : Access), step s = .next t →
    ((s.mmu a).inflight.count m < (t.mmu a).inflight.count m →
        (∃ rest, s.events = .start a m :: rest) ∧ (∀ e ∈ m.used, e ∈ (s.mmu a).tlb)
          ∧ (t.mmu a).inflight.count m = (s.mmu a).inflight.count m + 1)
      ∧ ((t.mmu a).inflight.count m < (s.mmu a).inflight.count m →
        (∃ rest, s.events = .finish a m :: rest)
          ∧ (s.mmu a).inflight.count m = (t.mmu a).inflight.count m + 1)

/-- 10_state.md R29, R31: what the moves of an agent on its own do. It caches any entry within bounds, drops any entry,
starts any access whose entries its TLB holds and finishes any access, whatever is pending; nothing else of the machine
changes but the move being used up, and the later moves stay (the moves are the model's form: log 24, log 25, log 26). -/
def Obligations.AgentMovesDoWhatTheyName : Prop :=
  ∀ (s : State) (a : AgentId) (rest : List Event), s.hasAgent a →
    (∀ e, s.events = .fill a e :: rest → e.wf s.cfg = true →
        ∃ t, step s = .next t ∧ (∀ e', e' ∈ (t.mmu a).tlb ↔ e' ∈ (s.mmu a).tlb ∨ e' = e)
          ∧ (t.mmu a).inflight = (s.mmu a).inflight ∧ SameButMmu s t a)
      ∧ (∀ e, s.events = .drop a e :: rest → (s.mmu a).tlb.Nodup →
        ∃ t, step s = .next t ∧ (∀ e', e' ∈ (t.mmu a).tlb ↔ e' ∈ (s.mmu a).tlb ∧ e' ≠ e)
          ∧ (t.mmu a).inflight = (s.mmu a).inflight ∧ SameButMmu s t a)
      ∧ (∀ m, s.events = .start a m :: rest → (∀ e ∈ m.used, e ∈ (s.mmu a).tlb) →
        ∃ t, step s = .next t ∧ (∀ m', (t.mmu a).inflight.count m'
              = (s.mmu a).inflight.count m' + if m' = m then 1 else 0)
          ∧ (t.mmu a).tlb = (s.mmu a).tlb ∧ SameButMmu s t a)
      ∧ (∀ m, s.events = .finish a m :: rest →
        ∃ t, step s = .next t ∧ (∀ m', (t.mmu a).inflight.count m'
              = (s.mmu a).inflight.count m' - if m' = m then 1 else 0)
          ∧ (t.mmu a).tlb = (s.mmu a).tlb ∧ SameButMmu s t a)
end

