-- ==== Sys2Proof/Laws/State.lean ====
section
/-! SUPPORT. Laws/State.lean: what each update of the state does to each field. -/

namespace Sys2Proof.Machine

/-! ### `setPe` -/

@[simp] theorem setPe_cfg (s : State) (p : Nat) (v : Pe) : (s.setPe p v).cfg = s.cfg := rfl
@[simp] theorem setPe_mem (s : State) (p : Nat) (v : Pe) : (s.setPe p v).mem = s.mem := rfl
@[simp] theorem setPe_pes (s : State) (p : Nat) (v : Pe) : (s.setPe p v).pes = s.pes.set p v := rfl
@[simp] theorem setPe_smmus (s : State) (p : Nat) (v : Pe) : (s.setPe p v).smmus = s.smmus := rfl
@[simp] theorem setPe_cur (s : State) (p : Nat) (v : Pe) : (s.setPe p v).cur = s.cur := rfl
@[simp] theorem setPe_events (s : State) (p : Nat) (v : Pe) : (s.setPe p v).events = s.events := rfl
@[simp] theorem setPe_freeCount (s : State) (p : Nat) (v : Pe) : (s.setPe p v).freeCount = s.freeCount := rfl

/-- The PE written is the one read back; every other reads as before. -/
theorem pe_setPe (s : State) (p q : Nat) (v : Pe) :
    (s.setPe p v).pe q = if q = p ∧ p < s.pes.length then v else s.pe q := by
  by_cases hq : q = p
  · subst hq
    by_cases hp : q < s.pes.length
    · simp [State.pe, hp]
    · simp [State.pe, hp]
  · have hq' : p ≠ q := fun h => hq h.symm
    simp [State.pe, hq, hq']

@[simp] theorem pe_setPe_self (s : State) (p : Nat) (v : Pe) (h : p < s.pes.length) : (s.setPe p v).pe p = v := by
  simp [pe_setPe, h]

theorem pe_setPe_ne (s : State) {p q : Nat} (v : Pe) (h : q ≠ p) : (s.setPe p v).pe q = s.pe q := by
  simp [pe_setPe, h]

theorem setPe_pe (s : State) (p : Nat) : s.setPe p (s.pe p) = s := by
  have h : s.pes.set p (s.pe p) = s.pes := by
    apply List.ext_getElem?
    intro q
    by_cases hq : p = q
    · subst hq
      by_cases hp : p < s.pes.length <;> simp [State.pe, hp]
    · simp [hq]
  unfold State.setPe
  rw [h]

theorem pe_mem (s : State) {p : Nat} (h : p < s.pes.length) : s.pe p ∈ s.pes := by
  simp [State.pe, h]

theorem pe_of_le (s : State) {p : Nat} (h : s.pes.length ≤ p) : s.pe p = default := by
  simp [State.pe, Nat.not_lt.mpr h]

/-! ### Reading PEs and agents through other updates -/

@[simp] theorem pe_events (s : State) (es : List Event) (p : Nat) : State.pe { s with events := es } p = s.pe p := rfl
@[simp] theorem pe_curEvents (s : State) (c : Nat) (es : List Event) (p : Nat) :
    State.pe { s with cur := c, events := es } p = s.pe p := rfl
@[simp] theorem pe_freeCount (s : State) (n : Nat) (p : Nat) : State.pe { s with freeCount := n } p = s.pe p := rfl
@[simp] theorem mmu_freeCount (s : State) (n : Nat) (a : AgentId) : State.mmu { s with freeCount := n } a = s.mmu a := by
  cases a <;> rfl
@[simp] theorem mmu_events (s : State) (es : List Event) (a : AgentId) :
    State.mmu { s with events := es } a = s.mmu a := by
  cases a <;> rfl
@[simp] theorem mmu_curEvents (s : State) (c : Nat) (es : List Event) (a : AgentId) :
    State.mmu { s with cur := c, events := es } a = s.mmu a := by
  cases a <;> rfl

/-- Replacing a PE by one with the same TLB and accesses changes no agent's. -/
theorem mmu_setPe_of_mmu_eq (s : State) (p : Nat) (v : Pe) (h : v.mmu = (s.pe p).mmu) (a : AgentId) :
    (s.setPe p v).mmu a = s.mmu a := by
  cases a with
  | pe n =>
    by_cases hn : n = p
    · subst hn
      by_cases hl : n < s.pes.length <;> simp [State.mmu, pe_setPe, hl, h]
    · simp [State.mmu, pe_setPe, hn]
  | smmu n => rfl

/-! ### `setMmu` -/

@[simp] theorem setMmu_cfg (s : State) (a : AgentId) (m : Mmu) : (s.setMmu a m).cfg = s.cfg := by cases a <;> rfl
@[simp] theorem setMmu_mem (s : State) (a : AgentId) (m : Mmu) : (s.setMmu a m).mem = s.mem := by cases a <;> rfl
@[simp] theorem setMmu_cur (s : State) (a : AgentId) (m : Mmu) : (s.setMmu a m).cur = s.cur := by cases a <;> rfl
@[simp] theorem setMmu_events (s : State) (a : AgentId) (m : Mmu) : (s.setMmu a m).events = s.events := by
  cases a <;> rfl
@[simp] theorem setMmu_freeCount (s : State) (a : AgentId) (m : Mmu) : (s.setMmu a m).freeCount = s.freeCount := by
  cases a <;> rfl
@[simp] theorem setMmu_pes_length (s : State) (a : AgentId) (m : Mmu) : (s.setMmu a m).pes.length = s.pes.length := by
  cases a <;> simp [State.setMmu]
@[simp] theorem setMmu_smmus_length (s : State) (a : AgentId) (m : Mmu) :
    (s.setMmu a m).smmus.length = s.smmus.length := by
  cases a <;> simp [State.setMmu]

/-- A PE after `setMmu`: only its TLB and accesses can differ. -/
theorem pe_setMmu (s : State) (a : AgentId) (m : Mmu) (p : Nat) :
    ∃ m', (s.setMmu a m).pe p = { s.pe p with mmu := m' } := by
  cases a with
  | pe n =>
    simp only [State.setMmu, pe_setPe]
    split
    · next h => exact ⟨m, by rw [h.1]⟩
    · exact ⟨_, rfl⟩
  | smmu n => exact ⟨_, rfl⟩

@[simp] theorem setMmu_regs (s : State) (a : AgentId) (m : Mmu) (p : Nat) :
    ((s.setMmu a m).pe p).regs = (s.pe p).regs := by
  obtain ⟨m', h⟩ := pe_setMmu s a m p; rw [h]
@[simp] theorem setMmu_pending (s : State) (a : AgentId) (m : Mmu) (p : Nat) :
    ((s.setMmu a m).pe p).pending = (s.pe p).pending := by
  obtain ⟨m', h⟩ := pe_setMmu s a m p; rw [h]
@[simp] theorem setMmu_raised (s : State) (a : AgentId) (m : Mmu) (p : Nat) :
    ((s.setMmu a m).pe p).raised = (s.pe p).raised := by
  obtain ⟨m', h⟩ := pe_setMmu s a m p; rw [h]

/-- The agent written is the one read back; every other reads as before; a write to no agent changes nothing. -/
theorem mmu_setMmu (s : State) (a b : AgentId) (m : Mmu) :
    (b = a ∧ s.hasAgent a ∧ (s.setMmu a m).mmu b = m)
      ∨ ((b ≠ a ∨ ¬s.hasAgent a) ∧ (s.setMmu a m).mmu b = s.mmu b) := by
  cases a with
  | pe n =>
    cases b with
    | pe k =>
      by_cases hk : k = n
      · subst hk
        by_cases hl : k < s.pes.length
        · exact .inl ⟨rfl, hl, by simp [State.setMmu, State.mmu, hl]⟩
        · exact .inr ⟨.inr hl, by simp [State.setMmu, State.mmu, pe_setPe, hl]⟩
      · exact .inr ⟨.inl (by simpa using hk), by simp [State.setMmu, State.mmu, pe_setPe, hk]⟩
    | smmu k => exact .inr ⟨.inl (by simp), rfl⟩
  | smmu n =>
    cases b with
    | pe k => exact .inr ⟨.inl (by simp), rfl⟩
    | smmu k =>
      by_cases hk : k = n
      · subst hk
        by_cases hl : k < s.smmus.length
        · exact .inl ⟨rfl, hl, by simp [State.setMmu, State.mmu, hl]⟩
        · exact .inr ⟨.inr hl, by simp [State.setMmu, State.mmu, hl]⟩
      · have hk' : ¬n = k := fun h => hk h.symm
        exact .inr ⟨.inl (by simpa using hk), by simp [State.setMmu, State.mmu, hk']⟩

/-! ### Register banks, advancing, exception entry -/

@[simp] theorem advance_mmu (pe : Pe) : pe.advance.mmu = pe.mmu := rfl
@[simp] theorem advance_pending (pe : Pe) : pe.advance.pending = pe.pending := rfl
@[simp] theorem advance_raised (pe : Pe) : pe.advance.raised = pe.raised := rfl
@[simp] theorem advance_pc (pe : Pe) : pe.advance.regs.pc = pe.regs.pc + 4 := rfl
@[simp] theorem advance_pstate (pe : Pe) : pe.advance.regs.pstate = pe.regs.pstate := rfl
@[simp] theorem advance_bank (pe : Pe) (l : ExcLevel) : pe.advance.regs.bank l = pe.regs.bank l := by cases l <;> rfl
theorem advance_sameControls (pe : Pe) : SameControls pe.regs pe.advance.regs := ⟨rfl, rfl, rfl, rfl, rfl, rfl⟩

@[simp] theorem bank_setBank_self (r : PeRegs) (l : ExcLevel) (b : ExcBank) : (r.setBank l b).bank l = b := by
  cases l <;> rfl
theorem bank_setBank_ne (r : PeRegs) {l l' : ExcLevel} (b : ExcBank) (h : l' ≠ l) :
    (r.setBank l b).bank l' = r.bank l' := by
  cases l <;> cases l' <;> first | rfl | exact absurd rfl h
theorem setBank_sameControls (r : PeRegs) (l : ExcLevel) (b : ExcBank) : SameControls r (r.setBank l b) := by
  cases l <;> exact ⟨rfl, rfl, rfl, rfl, rfl, rfl⟩
@[simp] theorem setBank_bank (r : PeRegs) (l : ExcLevel) : r.setBank l (r.bank l) = r := by cases l <;> rfl

@[simp] theorem takeException_mmu (pe : Pe) (l : ExcLevel) (e : BitVec 32) (w : Raised) :
    (pe.takeException l e w).mmu = pe.mmu := rfl
@[simp] theorem takeException_pending (pe : Pe) (l : ExcLevel) (e : BitVec 32) (w : Raised) :
    (pe.takeException l e w).pending = pe.pending := rfl
@[simp] theorem takeException_raised (pe : Pe) (l : ExcLevel) (e : BitVec 32) (w : Raised) :
    (pe.takeException l e w).raised = some w := rfl
@[simp] theorem takeException_pstate (pe : Pe) (l : ExcLevel) (e : BitVec 32) (w : Raised) :
    (pe.takeException l e w).regs.pstate = Pstate.onEntry l := rfl
@[simp] theorem takeException_pc (pe : Pe) (l : ExcLevel) (e : BitVec 32) (w : Raised) :
    (pe.takeException l e w).regs.pc = (pe.regs.bank l).vbar + vectorOffset pe.regs.pstate l := rfl
@[simp] theorem takeException_bank (pe : Pe) (l : ExcLevel) (e : BitVec 32) (w : Raised) :
    (pe.takeException l e w).regs.bank l
      = { (pe.regs.bank l) with elr := pe.regs.pc, spsr := pe.regs.pstate, esr := e } := by
  cases l <;> rfl
theorem takeException_bank_ne (pe : Pe) {l l' : ExcLevel} (e : BitVec 32) (w : Raised) (h : l' ≠ l) :
    (pe.takeException l e w).regs.bank l' = pe.regs.bank l' := by
  cases l <;> cases l' <;> first | rfl | exact absurd rfl h
theorem takeException_sameControls (pe : Pe) (l : ExcLevel) (e : BitVec 32) (w : Raised) :
    SameControls pe.regs (pe.takeException l e w).regs := by
  cases l <;> exact ⟨rfl, rfl, rfl, rfl, rfl, rfl⟩

/-! ### Lists as sets -/

@[simp] theorem mem_insertNew {α : Type} [DecidableEq α] (x y : α) (l : List α) :
    y ∈ insertNew x l ↔ y ∈ l ∨ y = x := by
  unfold insertNew
  split
  · next h => constructor
              · exact .inl
              · rintro (h' | rfl)
                · exact h'
                · exact h
  · simp

theorem nodup_insertNew {α : Type} [DecidableEq α] (x : α) {l : List α} (h : l.Nodup) : (insertNew x l).Nodup := by
  unfold insertNew
  split
  · exact h
  · next hx =>
    rw [List.nodup_append]
    refine ⟨h, by simp, ?_⟩
    intro a ha b hb
    rw [List.mem_singleton] at hb
    subst hb
    exact fun hab => hx (hab ▸ ha)

end Sys2Proof.Machine
end

