-- ==== Sys2Proof/Laws/Tlb.lean ====
section
/-! SUPPORT. Laws/Tlb.lean: TLBs as sets of entries within bounds, what completion waits for, and the scope. -/

namespace Sys2Proof.Machine

theorem TlbWf.nil (cfg : Config) : TlbWf cfg [] := ⟨by simp, List.nodup_nil⟩

/-- A fill keeps a TLB a set of entries within bounds. -/
theorem TlbWf.fill {cfg : Config} {tlb : List TlbEntry} (h : TlbWf cfg tlb) (e : TlbEntry) :
    TlbWf cfg (fillTlb cfg e tlb) := by
  unfold fillTlb
  split
  · next he =>
    refine ⟨fun e' he' => ?_, nodup_insertNew e h.nodup⟩
    rcases (mem_insertNew e e' tlb).mp he' with h' | rfl
    · exact h.entries e' h'
    · exact he
  · exact h

theorem TlbWf.erase {cfg : Config} {tlb : List TlbEntry} (h : TlbWf cfg tlb) (e : TlbEntry) : TlbWf cfg (tlb.erase e) :=
  ⟨fun e' he' => h.entries e' (List.mem_of_mem_erase he'), h.nodup.erase e⟩

theorem TlbWf.filter {cfg : Config} {tlb : List TlbEntry} (h : TlbWf cfg tlb) (p : TlbEntry → Bool) :
    TlbWf cfg (tlb.filter p) :=
  ⟨fun e' he' => h.entries e' (List.mem_filter.mp he').1, h.nodup.filter p⟩

/-- A TLB after reset is a set of entries within bounds, whatever it was filled with. -/
theorem TlbWf.reset (cfg : Config) (a : AgentId) : TlbWf cfg (resetTlb cfg a) := by
  have h : ∀ (l : List TlbEntry) (tlb : List TlbEntry), TlbWf cfg tlb →
      TlbWf cfg (l.foldl (fun tlb e => fillTlb cfg e tlb) tlb) := by
    intro l
    induction l with
    | nil => exact fun _ h => h
    | cons e l ih => exact fun tlb h => ih _ (h.fill e)
  exact h _ _ (TlbWf.nil cfg)

/-- The members of a TLB after a fill. -/
theorem mem_fillTlb {cfg : Config} {e e' : TlbEntry} {tlb : List TlbEntry} :
    e' ∈ fillTlb cfg e tlb ↔ e' ∈ tlb ∨ (e' = e ∧ e.wf cfg = true) := by
  unfold fillTlb
  split
  · next he => simp [he]
  · next he => simp [he]

/-- The agents in the scope of an operation. -/
theorem mem_scope {cfg : Config} {op : TlbiOp} {a : AgentId} :
    a ∈ scope cfg op ↔ a ∈ cfg.agents ∧ cfg.inIsh op.issuer a = true := by
  simp [scope, List.mem_filter]

theorem mem_agents {cfg : Config} {a : AgentId} : a ∈ cfg.agents ↔ cfg.hasAgent a = true := by
  cases a <;> simp [Config.agents, Config.hasAgent]

/-- What an agent that is done has left. -/
theorem agentDone_iff (s : State) (op : TlbiOp) (a : AgentId) : s.agentDone op a = true ↔ NothingLeft s op a := by
  have hw : ∀ m : Access, (waitsFor s.cfg op a m = false) ↔
      ((op.attr = .allAttr ∨ m.xs = false) → ∀ e ∈ m.used, required s.cfg op a e = false) := by
    intro m
    unfold waitsFor
    rcases op.attr with _ | _ <;> cases m.xs <;> simp
  simp only [State.agentDone, NothingLeft, Bool.and_eq_true, List.all_eq_true, Bool.not_eq_true', hw]

/-- The completion condition: nothing is left with any agent in scope. -/
theorem canComplete_iff (s : State) (op : TlbiOp) :
    s.canComplete op = true ↔ ∀ a ∈ scope s.cfg op, NothingLeft s op a := by
  simp only [State.canComplete, List.all_eq_true, agentDone_iff]

end Sys2Proof.Machine
end

