-- ==== Sys2Proof/Laws/Ops.lean ====
section
/-! SUPPORT. Laws/Ops.lean: what each shared operation and each predicate says, once. -/

namespace Sys2Proof.Machine

/-! ### The predicates of 10_state.md R24 to R26 and the traps, as propositions -/

theorem el2Enabled_iff (cfg : Config) (r : PeRegs) : el2Enabled cfg r = true ↔ EL2On cfg r := by
  cases h2 : cfg.haveEL2 <;> cases h3 : cfg.haveEL3 <;> simp [el2Enabled, EL2On, h2, h3]

theorem hcrxEnabled_iff (cfg : Config) (r : PeRegs) : hcrxEnabled cfg r = true ↔ HcrxOn cfg r := by
  unfold hcrxEnabled HcrxOn
  rw [Bool.and_eq_true, Bool.and_eq_true, el2Enabled_iff]
  cases cfg.haveEL3 <;> simp [and_assoc]

theorem fgtArmed_iff (cfg : Config) (r : PeRegs) :
    (fgtArmed cfg r = true ∧ r.hfgitr.tlbivale1is = true) ↔ FineTrap cfg r := by
  unfold fgtArmed FineTrap
  rw [Bool.and_eq_true, Bool.and_eq_true, el2Enabled_iff]
  cases cfg.haveEL3 <;> simp [and_assoc]

theorem trapTtlb_iff (cfg : Config) (r : PeRegs) : trapTtlb cfg r = true ↔ EL2On cfg r ∧ r.hcr.ttlb = true := by
  rw [trapTtlb, Bool.and_eq_true, el2Enabled_iff]

theorem trapTtlbis_iff (cfg : Config) (r : PeRegs) : trapTtlbis cfg r = true ↔ EL2On cfg r ∧ r.hcr.ttlbis = true := by
  rw [trapTtlbis, Bool.and_eq_true, el2Enabled_iff]

theorem trapFgt_iff (cfg : Config) (r : PeRegs) : trapFgt cfg r = true ↔ FineTrap cfg r := by
  rw [trapFgt, Bool.and_eq_true, fgtArmed_iff]

theorem trapFgtNxs_iff (cfg : Config) (r : PeRegs) :
    trapFgtNxs cfg r = true ↔
      FineTrap cfg r ∧ cfg.featHCX = true ∧ (¬HcrxOn cfg r ∨ r.hcrx.fgtnxs = false) := by
  rw [← fgtArmed_iff, ← hcrxEnabled_iff]
  unfold trapFgtNxs
  cases fgtArmed cfg r <;> cases cfg.featHCX <;> cases hcrxEnabled cfg r <;> cases r.hcrx.fgtnxs <;>
    cases r.hfgitr.tlbivale1is <;> decide

/-- The three tests of `TLBI VALE1IS` at EL1, together. -/
theorem plainTraps_iff (cfg : Config) (r : PeRegs) :
    PlainTraps cfg r ↔ trapTtlb cfg r = true ∨ trapTtlbis cfg r = true ∨ trapFgt cfg r = true := by
  rw [trapTtlb_iff, trapTtlbis_iff, trapFgt_iff]
  constructor
  · rintro (⟨h, h' | h'⟩ | h)
    · exact .inl ⟨h, h'⟩
    · exact .inr (.inl ⟨h, h'⟩)
    · exact .inr (.inr h)
  · rintro (⟨h, h'⟩ | ⟨h, h'⟩ | h)
    · exact .inl ⟨h, .inl h'⟩
    · exact .inl ⟨h, .inr h'⟩
    · exact .inr h

/-- The three tests of `TLBI VALE1ISNXS` at EL1, together. -/
theorem nxsTraps_iff (cfg : Config) (r : PeRegs) :
    NxsTraps cfg r ↔ trapTtlb cfg r = true ∨ trapTtlbis cfg r = true ∨ trapFgtNxs cfg r = true := by
  rw [trapTtlb_iff, trapTtlbis_iff, trapFgtNxs_iff]
  constructor
  · rintro (⟨h, h' | h'⟩ | h)
    · exact .inl ⟨h, h'⟩
    · exact .inr (.inl ⟨h, h'⟩)
    · exact .inr (.inr h)
  · rintro (⟨h, h'⟩ | ⟨h, h'⟩ | h)
    · exact .inl ⟨h, .inl h'⟩
    · exact .inl ⟨h, .inr h'⟩
    · exact .inr h

theorem fnxsOverride_iff (cfg : Config) (r : PeRegs) :
    fnxsOverride cfg r = true ↔ cfg.featXS = true ∧ cfg.featHCX = true ∧ HcrxOn cfg r ∧ r.hcrx.fnxs = true := by
  rw [← hcrxEnabled_iff]
  simp [fnxsOverride, and_assoc]

theorem securityState_eq_none_iff (cfg : Config) (r : PeRegs) :
    securityState cfg r = none ↔ NoSecurityState cfg r := by
  unfold securityState NoSecurityState
  cases h3 : cfg.haveEL3 <;> cases hr : cfg.featRME <;> cases hs : r.scr.nse <;> cases hn : r.scr.ns <;> simp

theorem securityIs_of_eq_some {cfg : Config} {r : PeRegs} {sec : SecurityState}
    (h : securityState cfg r = some sec) : SecurityIs cfg r sec := by
  unfold securityState at h
  unfold SecurityIs
  cases h3 : cfg.haveEL3 <;> cases hr : cfg.featRME <;> cases hs : r.scr.nse <;> cases hn : r.scr.ns <;>
    rw [h3] at h <;> simp_all

theorem vmidIs_vmidArg (cfg : Config) (r : PeRegs) : VmidIs cfg r (vmidArg cfg r) := by
  unfold VmidIs vmidArg
  rw [← el2Enabled_iff]
  cases el2Enabled cfg r <;> simp

/-! ### Starting an operation -/

/-- Making `op` pending changes the pending set and the pc, and nothing else. -/
theorem addOp_issued (s : State) (op : TlbiOp) (h : s.cur < s.pes.length) : Issued s (s.addOp op) op := by
  have hpe : (s.addOp op).pe s.cur = Pe.advance { s.pe s.cur with pending := insertNew op (s.pe s.cur).pending } :=
    pe_setPe_self s s.cur _ h
  refine ⟨⟨rfl, fun _ => rfl, rfl, by simp [State.addOp], fun q hq => pe_setPe_ne s _ hq,
    mmu_setPe_of_mmu_eq s s.cur _ rfl, rfl, rfl⟩, ?_, ?_, ?_, ?_, ?_, ?_, rfl⟩ <;> rw [hpe]
  · exact advance_sameControls _
  · rfl
  · exact advance_bank _
  · rfl
  · rfl
  · exact fun o => mem_insertNew op o _

theorem allEel2_getD (s : State) {q : Nat} (hq : q < s.pes.length) :
    s.allEel2.getD q false = (s.pe q).regs.scr.eel2 := by
  simp [State.allEel2, State.pe, hq]

theorem readX_operand (r : PeRegs) (t : Nat) : OperandIs r t (r.readX t) :=
  ⟨fun h => by simp [PeRegs.readX, h], fun h => by subst h; rfl⟩

theorem fields_of_operand (xt : DWord) (op : TlbiOp) (ha : op.asid = operandAsid xt) (ht : op.ttl = operandTtl xt)
    (hv : op.vapg = operandVapg xt) : FieldsOf xt op := by
  have hx := xt.isLt
  refine ⟨?_, ?_, ?_⟩
  · rw [ha, operandAsid, BitVec.extractLsb'_toNat, Nat.shiftRight_eq_div_pow]; omega
  · rw [ht, operandTtl, BitVec.extractLsb'_toNat, Nat.shiftRight_eq_div_pow]
  · rw [hv, operandVapg, BitVec.extractLsb'_toNat, Nat.shiftRight_zero]

/-- The record a PE builds has the issuer, Security state, operand fields and EEL2 values of that moment. -/
theorem tlbiOp_recordOf (s : State) {sec : SecurityState} (attr : XsAttr) (t : Nat)
    (h : securityState s.cfg s.regs = some sec) : RecordOf s s.cur t (s.tlbiOp sec attr t) :=
  ⟨rfl, securityIs_of_eq_some h, rfl,
    ⟨s.regs.readX t, readX_operand _ t, fields_of_operand _ _ rfl rfl rfl⟩,
    by simp [State.tlbiOp, State.regs], by simp [State.tlbiOp, State.allEel2], fun q hq => allEel2_getD s hq⟩

/-- What `issueTlbi` can do: build the record and make it pending, or be refused for want of a Security state. -/
theorem issueTlbi_cases (s : State) (attr : XsAttr) (t : Nat) :
    (∃ sec, securityState s.cfg s.regs = some sec ∧ s.issueTlbi attr t = .next (s.addOp (s.tlbiOp sec attr t)))
      ∨ (NoSecurityState s.cfg s.regs ∧ s.issueTlbi attr t = .refused .reservedSecurityState) := by
  unfold State.issueTlbi
  cases h : securityState s.cfg s.regs with
  | none => exact .inr ⟨(securityState_eq_none_iff _ _).mp h, rfl⟩
  | some sec => exact .inl ⟨sec, rfl, rfl⟩

/-- `issueTlbi` answers a next state wherever there is a Security state. -/
theorem issueTlbi_next (s : State) (attr : XsAttr) (t : Nat) (h : ¬NoSecurityState s.cfg s.regs) :
    ∃ sec, securityState s.cfg s.regs = some sec ∧ s.issueTlbi attr t = .next (s.addOp (s.tlbiOp sec attr t)) := by
  rcases issueTlbi_cases s attr t with h' | ⟨h', _⟩
  · exact h'
  · exact absurd h' h

/-- The regime and VMID: EL1&0 with the VMID argument, but for EL2&0 and none where `targetsEl20` says so. -/
theorem targetRegime_cases (cfg : Config) (r : PeRegs) :
    (targetsEl20 cfg r = true ∧ targetRegime cfg r = (.el20, none))
      ∨ (targetsEl20 cfg r = false ∧ targetRegime cfg r = (.el10, vmidArg cfg r)) := by
  unfold targetRegime
  cases targetsEl20 cfg r
  · exact .inr ⟨rfl, rfl⟩
  · exact .inl ⟨rfl, rfl⟩

/-! ### Taking an exception -/

/-- A PE that takes an exception enters it as 60_exceptions.md R89 says. -/
theorem takeException_entered (s : State) (l : ExcLevel) (e : BitVec 32) (w : Raised) (h : s.cur < s.pes.length) :
    Entered s (s.setPe s.cur ((s.pe s.cur).takeException l e w)) l w := by
  have hpe := pe_setPe_self s s.cur ((s.pe s.cur).takeException l e w) h
  refine ⟨⟨rfl, fun _ => rfl, rfl, by simp, fun q hq => pe_setPe_ne s _ hq,
    mmu_setPe_of_mmu_eq s s.cur _ rfl, rfl, rfl⟩, ?_, ?_, ?_, ?_, ?_, ?_, ?_, ?_, ?_, ?_, ?_⟩ <;> rw [hpe]
  · exact takeException_sameControls _ _ _ _
  · rfl
  · rfl
  · simp
  · simp
  · simp
  · exact fun l' hl' => takeException_bank_ne _ _ _ hl'
  · rfl
  · intro hlt
    simp [vectorOffset, hlt]
  · intro heq hs
    simp [vectorOffset, heq, hs]
  · intro heq hs
    simp [vectorOffset, heq, hs]

/-- `raise Undefined()`: the exception is entered, and one free value is used. -/
theorem raiseUndefined_entered (s : State) (h : s.cur < s.pes.length) :
    Entered s s.raiseUndefined (undefinedTarget s.cfg s.regs) (.undefined s.regs.pstate.el)
      ∧ s.raiseUndefined.freeCount = s.freeCount + 1 := by
  obtain ⟨⟨h1, h2, h3, h4, h5, h6, h7, h8⟩, hrest⟩ :=
    takeException_entered s (undefinedTarget s.cfg s.regs) (undefinedSyndrome (Config.undefinedIL s.freeCount))
      (.undefined s.regs.pstate.el) h
  exact ⟨⟨⟨h1, h2, h3, h4, h5, fun a => (mmu_freeCount _ _ a).trans (h6 a), h7, h8⟩, hrest⟩, rfl⟩

/-- The syndrome of an Undefined exception: class 0 and nothing of the instruction, whatever the IL bit is. -/
theorem undefinedSyndrome_fields (il : BitVec 1) :
    (undefinedSyndrome il).extractLsb' 26 6 = 0 ∧ (undefinedSyndrome il).extractLsb' 0 25 = 0 := by
  revert il
  decide

/-- `raise SystemAccessTrap(EL2, 0x18)`: the exception is entered at EL2 with the syndrome of the instruction. -/
theorem trapToEl2_entered (s : State) (i : Instr) (h : s.cur < s.pes.length) :
    Entered s (s.trapToEl2 i) .el2 (.systemAccessTrap s.regs.pstate.el .el2 0x18 i)
      ∧ (((s.trapToEl2 i).pe s.cur).regs.exc2).esr = trapSyndrome i
      ∧ (s.trapToEl2 i).freeCount = s.freeCount := by
  refine ⟨takeException_entered s .el2 (trapSyndrome i) _ h, ?_, rfl⟩
  rw [State.trapToEl2, pe_setPe_self s s.cur _ h]
  rfl

/-! ### The meanings -/

/-- `TLBI VALE1IS` at EL0 (40_tlbi_vale1is.md R81). -/
theorem exec_vale1is_el0 {s : State} (t : Nat) (h : s.regs.pstate.el = .el0) :
    exec (.tlbiVale1is t) s = .next s.raiseUndefined := by
  simp only [exec, execTlbiVale1is, h]

/-- `TLBI VALE1IS` at EL1 under a trap control (40_tlbi_vale1is.md R81). -/
theorem exec_vale1is_trap {s : State} (t : Nat) (h : s.regs.pstate.el = .el1) (ht : PlainTraps s.cfg s.regs) :
    exec (.tlbiVale1is t) s = .next (s.trapToEl2 (.tlbiVale1is t)) := by
  rw [plainTraps_iff] at ht
  simp only [exec, execTlbiVale1is, h]
  rcases ht with h1 | h1 | h1 <;> simp only [h1, if_true, ite_self]

/-- `TLBI VALE1IS` at EL1 under no trap control (40_tlbi_vale1is.md R81). -/
theorem exec_vale1is_el1 {s : State} (t : Nat) (h : s.regs.pstate.el = .el1) (ht : ¬PlainTraps s.cfg s.regs) :
    exec (.tlbiVale1is t) s = s.issueTlbi (if fnxsOverride s.cfg s.regs then .excludeXS else .allAttr) t := by
  rw [plainTraps_iff] at ht
  simp only [not_or] at ht
  simp only [exec, execTlbiVale1is, h, if_neg ht.1, if_neg ht.2.1, if_neg ht.2.2]

/-- `TLBI VALE1IS` at EL2 or EL3 (40_tlbi_vale1is.md R81). -/
theorem exec_vale1is_high {s : State} (t : Nat) (h : s.regs.pstate.el = .el2 ∨ s.regs.pstate.el = .el3) :
    exec (.tlbiVale1is t) s = s.issueTlbi .allAttr t := by
  rcases h with h | h <;> simp only [exec, execTlbiVale1is, h]

/-- `TLBI VALE1ISNXS` without FEAT_XS (40_tlbi_vale1is.md R82). -/
theorem exec_nxs_noXS {s : State} (t : Nat) (h : s.cfg.featXS = false) :
    exec (.tlbiVale1isnxs t) s = .next s.raiseUndefined := by
  simp only [exec, execTlbiVale1isnxs, h, Bool.not_false, if_true]

/-- `TLBI VALE1ISNXS` at EL0 (40_tlbi_vale1is.md R82). -/
theorem exec_nxs_el0 {s : State} (t : Nat) (h : s.regs.pstate.el = .el0) :
    exec (.tlbiVale1isnxs t) s = .next s.raiseUndefined := by
  simp only [exec, execTlbiVale1isnxs, h, ite_self]

/-- `TLBI VALE1ISNXS` at EL1 under a trap control (40_tlbi_vale1is.md R82). -/
theorem exec_nxs_trap {s : State} (t : Nat) (hx : s.cfg.featXS = true) (h : s.regs.pstate.el = .el1)
    (ht : NxsTraps s.cfg s.regs) : exec (.tlbiVale1isnxs t) s = .next (s.trapToEl2 (.tlbiVale1isnxs t)) := by
  rw [nxsTraps_iff] at ht
  simp only [exec, execTlbiVale1isnxs, h, hx, Bool.not_true, Bool.false_eq_true, if_false]
  rcases ht with h1 | h1 | h1 <;> simp only [h1, if_true, ite_self]

/-- `TLBI VALE1ISNXS` at EL1 under no trap control (40_tlbi_vale1is.md R82). -/
theorem exec_nxs_el1 {s : State} (t : Nat) (hx : s.cfg.featXS = true) (h : s.regs.pstate.el = .el1)
    (ht : ¬NxsTraps s.cfg s.regs) : exec (.tlbiVale1isnxs t) s = s.issueTlbi .excludeXS t := by
  rw [nxsTraps_iff] at ht
  simp only [not_or] at ht
  simp only [exec, execTlbiVale1isnxs, h, hx, Bool.not_true, Bool.false_eq_true, if_false, if_neg ht.1, if_neg ht.2.1,
    if_neg ht.2.2]

/-- `TLBI VALE1ISNXS` at EL2 or EL3 (40_tlbi_vale1is.md R82). -/
theorem exec_nxs_high {s : State} (t : Nat) (hx : s.cfg.featXS = true)
    (h : s.regs.pstate.el = .el2 ∨ s.regs.pstate.el = .el3) :
    exec (.tlbiVale1isnxs t) s = s.issueTlbi .excludeXS t := by
  rcases h with h | h <;>
    simp only [exec, execTlbiVale1isnxs, h, hx, Bool.not_true, Bool.false_eq_true, if_false]

theorem attrIs_vale1is_el1 {cfg : Config} {r : PeRegs} (t : Nat) (h : r.pstate.el = .el1) :
    AttrIs cfg r (.tlbiVale1is t) (if fnxsOverride cfg r then .excludeXS else .allAttr) := by
  simp only [AttrIs, h, true_and, ← fnxsOverride_iff]
  cases fnxsOverride cfg r <;> simp

theorem attrIs_vale1is_high {cfg : Config} {r : PeRegs} (t : Nat) (h : r.pstate.el = .el2 ∨ r.pstate.el = .el3) :
    AttrIs cfg r (.tlbiVale1is t) .allAttr := by
  rcases h with h | h <;> simp [AttrIs, h]

/-- A record carries the regime and VMID of its PE's target (40_tlbi_vale1is.md R72). -/
theorem tlbiOp_targetIs (s : State) (sec : SecurityState) (attr : XsAttr) (t : Nat) (h : s.regs.pstate.el ≠ .el0) :
    TargetIs s.cfg s.regs (s.tlbiOp sec attr t) := by
  have hon : targetsEl20 s.cfg s.regs = true ↔ s.regs.pstate.el ≠ .el1 ∧ EL2On s.cfg s.regs
      ∧ s.regs.hcr.e2h = true ∧ s.regs.hcr.tge = true := by
    rw [← el2Enabled_iff]
    revert h
    cases hl : s.regs.pstate.el <;> simp [targetsEl20, hl, and_assoc]
  show TargetIs s.cfg s.regs { s.tlbiOp sec attr t with
    regime := (targetRegime s.cfg s.regs).1, vmid := (targetRegime s.cfg s.regs).2 }
  rcases targetRegime_cases s.cfg s.regs with ⟨h1, h2⟩ | ⟨h1, h2⟩ <;> rw [h2]
  · exact ⟨fun _ => ⟨rfl, rfl⟩, fun hn => absurd (hon.mp h1) hn⟩
  · exact ⟨fun hy => absurd (hon.mpr hy) (by simp [h1]), fun _ => ⟨rfl, vmidIs_vmidArg _ _⟩⟩

/-- What an instruction can do. -/
inductive ExecOutcome (i : Instr) (s : State) : Host.Outcome State Fault Refusal → Prop where
  /-- It makes one record pending. -/
  | issue (sec : SecurityState) (attr : XsAttr) (hsec : securityState s.cfg s.regs = some sec)
      (hel : s.regs.pstate.el ≠ .el0) (hattr : AttrIs s.cfg s.regs i attr) : ExecOutcome i s (.next (s.addOp (s.tlbiOp sec attr i.rt)))
  /-- It raises Undefined. -/
  | undefined : ExecOutcome i s (.next s.raiseUndefined)
  /-- It traps from EL1 to EL2. -/
  | trap (hel : s.regs.pstate.el = .el1) (hon : EL2On s.cfg s.regs) : ExecOutcome i s (.next (s.trapToEl2 i))
  /-- There is no Security state to act on. -/
  | noSecurityState (hno : NoSecurityState s.cfg s.regs) (hel : s.regs.pstate.el ≠ .el0) :
      ExecOutcome i s (.refused .reservedSecurityState)

theorem ExecOutcome.of_issueTlbi {i : Instr} {s : State} (attr : XsAttr) (hel : s.regs.pstate.el ≠ .el0)
    (hattr : AttrIs s.cfg s.regs i attr) : ExecOutcome i s (s.issueTlbi attr i.rt) := by
  rcases issueTlbi_cases s attr i.rt with ⟨sec, hs, h⟩ | ⟨hno, h⟩
  · rw [h]; exact .issue sec attr hs hel hattr
  · rw [h]; exact .noSecurityState hno hel

theorem PlainTraps.el2On {cfg : Config} {r : PeRegs} (h : PlainTraps cfg r) : EL2On cfg r := by
  rcases h with h | h <;> exact h.1

theorem NxsTraps.el2On {cfg : Config} {r : PeRegs} (h : NxsTraps cfg r) : EL2On cfg r := by
  rcases h with h | h
  · exact h.1
  · exact h.1.1

/-- Every outcome of an instruction is one of `ExecOutcome`. -/
theorem exec_outcome (i : Instr) (s : State) : ExecOutcome i s (exec i s) := by
  have hel1 : s.regs.pstate.el = .el1 → s.regs.pstate.el ≠ .el0 := fun h => by rw [h]; decide
  have hhigh : s.regs.pstate.el = .el2 ∨ s.regs.pstate.el = .el3 → s.regs.pstate.el ≠ .el0 := by
    rintro (h | h) <;> rw [h] <;> decide
  have hlevels : s.regs.pstate.el = .el0 ∨ s.regs.pstate.el = .el1
      ∨ (s.regs.pstate.el = .el2 ∨ s.regs.pstate.el = .el3) := by
    cases s.regs.pstate.el <;> simp
  cases i with
  | tlbiVale1is t =>
    rcases hlevels with h | h | h
    · rw [exec_vale1is_el0 t h]; exact .undefined
    · by_cases ht : PlainTraps s.cfg s.regs
      · rw [exec_vale1is_trap t h ht]; exact .trap h ht.el2On
      · rw [exec_vale1is_el1 t h ht]; exact .of_issueTlbi (i := .tlbiVale1is t) _ (hel1 h) (attrIs_vale1is_el1 t h)
    · rw [exec_vale1is_high t h]; exact .of_issueTlbi (i := .tlbiVale1is t) _ (hhigh h) (attrIs_vale1is_high t h)
  | tlbiVale1isnxs t =>
    by_cases hx : s.cfg.featXS = true
    · rcases hlevels with h | h | h
      · rw [exec_nxs_el0 t h]; exact .undefined
      · by_cases ht : NxsTraps s.cfg s.regs
        · rw [exec_nxs_trap t hx h ht]; exact .trap h ht.el2On
        · rw [exec_nxs_el1 t hx h ht]; exact .of_issueTlbi (i := .tlbiVale1isnxs t) _ (hel1 h) rfl
      · rw [exec_nxs_high t hx h]; exact .of_issueTlbi (i := .tlbiVale1isnxs t) _ (hhigh h) rfl
    · rw [exec_nxs_noXS t (Bool.not_eq_true _ ▸ hx)]; exact .undefined

/-- No instruction changes any agent's TLB or accesses in flight (40_tlbi_vale1is.md R79, 10_state.md R31). -/
theorem exec_mmu {i : Instr} {s t : State} (h : exec i s = .next t) (a : AgentId) : t.mmu a = s.mmu a := by
  have ho := exec_outcome i s
  rw [h] at ho
  cases ho with
  | issue sec attr _ _ _ => exact mmu_setPe_of_mmu_eq s s.cur _ (by rfl) a
  | undefined => exact (mmu_freeCount _ _ a).trans (mmu_setPe_of_mmu_eq s s.cur _ (by rfl) a)
  | trap _ _ => exact mmu_setPe_of_mmu_eq s s.cur _ (by rfl) a

end Sys2Proof.Machine
end

