-- ==== Sys2Proof/Laws/Action.lean ====
section
/-! SUPPORT. Laws/Action.lean: what an instruction does is chosen by the configuration and the executing PE's registers
alone, and carried out by one of three operations. -/

namespace Sys2Proof.Machine

/-- The three things an instruction does. -/
inductive Action where
  | undefined
  | trap
  | issue (attr : XsAttr)
deriving DecidableEq

/-- The choice of an instruction (40_tlbi_vale1is.md R81, R82). -/
def action (i : Instr) (cfg : Config) (r : PeRegs) : Action :=
  match i with
  | .tlbiVale1is _ =>
    match r.pstate.el with
    | .el0 => .undefined
    | .el1 =>
      if trapTtlb cfg r || trapTtlbis cfg r || trapFgt cfg r then .trap
      else .issue (if fnxsOverride cfg r then .excludeXS else .allAttr)
    | .el2 => .issue .allAttr
    | .el3 => .issue .allAttr
  | .tlbiVale1isnxs _ =>
    if !cfg.featXS then .undefined
    else
      match r.pstate.el with
      | .el0 => .undefined
      | .el1 =>
        if trapTtlb cfg r || trapTtlbis cfg r || trapFgtNxs cfg r then .trap
        else .issue .excludeXS
      | .el2 => .issue .excludeXS
      | .el3 => .issue .excludeXS

/-- Carrying out a choice. -/
def State.perform (s : State) (i : Instr) : Action → Host.Outcome State Fault Refusal
  | .undefined => .next s.raiseUndefined
  | .trap => .next (s.trapToEl2 i)
  | .issue attr => s.issueTlbi attr i.rt

/-- An instruction carries out its choice. -/
theorem exec_eq_perform (i : Instr) (s : State) : exec i s = s.perform i (action i s.cfg s.regs) := by
  cases i with
  | tlbiVale1is t =>
    simp only [exec, execTlbiVale1is, action]
    cases s.regs.pstate.el with
    | el1 =>
      cases trapTtlb s.cfg s.regs <;> cases trapTtlbis s.cfg s.regs <;> cases trapFgt s.cfg s.regs <;> rfl
    | el0 => rfl
    | el2 => rfl
    | el3 => rfl
  | tlbiVale1isnxs t =>
    simp only [exec, execTlbiVale1isnxs, action]
    cases s.cfg.featXS with
    | false => rfl
    | true =>
      cases s.regs.pstate.el with
      | el1 =>
        cases trapTtlb s.cfg s.regs <;> cases trapTtlbis s.cfg s.regs <;> cases trapFgtNxs s.cfg s.regs <;> rfl
      | el0 => rfl
      | el2 => rfl
      | el3 => rfl

end Sys2Proof.Machine
end

