-- ==== Sys2Proof/Laws/Memory.lean ====
section
/-! SUPPORT. Laws/Memory.lean: reading after writing, and the canonical form of every memory operation's result. -/

namespace Sys2Proof.Machine.Memory

theorem wfFrom_mono {lo lo' : Nat} (hle : lo' ≤ lo) {m : Memory} (h : wfFrom lo m = true) : wfFrom lo' m = true := by
  cases m with
  | nil => rfl
  | cons c rest =>
    obtain ⟨a, b⟩ := c
    simp only [wfFrom, Bool.and_eq_true, decide_eq_true_eq] at h ⊢
    exact ⟨⟨Nat.le_trans hle h.1.1, h.1.2⟩, h.2⟩

/-- In canonical form an address below the first one has no value. -/
theorem read_below {lo : Nat} {m : Memory} (h : wfFrom lo m = true) {a : Nat} (ha : a < lo) : m.read a = none := by
  induction m generalizing lo with
  | nil => rfl
  | cons c rest ih =>
    obtain ⟨a', b⟩ := c
    simp only [wfFrom, Bool.and_eq_true, decide_eq_true_eq] at h
    have hne : a ≠ a' := by omega
    simp only [read, hne, if_false]
    exact ih h.2 (by omega)

/-- Writing keeps the canonical form. -/
theorem wfFrom_write {lo : Nat} {m : Memory} {a : Nat} (b : Byte) (h : wfFrom lo m = true) (hlo : lo ≤ a)
    (ha : a < 2 ^ 64) : wfFrom lo (m.write a b) = true := by
  induction m generalizing lo with
  | nil => simp only [write, wfFrom, hlo, ha, decide_true, Bool.and_self]
  | cons c rest ih =>
    obtain ⟨a', b'⟩ := c
    simp only [wfFrom, Bool.and_eq_true, decide_eq_true_eq] at h
    simp only [write]
    split
    · next hlt =>
      simp only [wfFrom, Bool.and_eq_true, decide_eq_true_eq]
      exact ⟨⟨hlo, ha⟩, ⟨by omega, h.1.2⟩, h.2⟩
    · split
      · next heq =>
        subst heq
        simp only [wfFrom, Bool.and_eq_true, decide_eq_true_eq]
        exact ⟨⟨hlo, ha⟩, h.2⟩
      · next hnl hne =>
        simp only [wfFrom, Bool.and_eq_true, decide_eq_true_eq]
        exact ⟨h.1, ih h.2 (by omega)⟩

theorem wf_write {m : Memory} {a : Nat} (b : Byte) (h : m.wf = true) (ha : a < 2 ^ 64) : (m.write a b).wf = true :=
  wfFrom_write b h (Nat.zero_le a) ha

/-- A read of the address written gives the byte written. -/
@[simp] theorem read_write_same (m : Memory) (a : Nat) (b : Byte) : (m.write a b).read a = some b := by
  induction m with
  | nil => simp [write, read]
  | cons c rest ih =>
    obtain ⟨a', b'⟩ := c
    simp only [write]
    split
    · simp [read]
    · split
      · simp [read]
      · next hne => simp [read, hne, ih]

/-- A read of any other address gives what it gave. -/
theorem read_write_other (m : Memory) {a a' : Nat} (b : Byte) (hne : a' ≠ a) : (m.write a b).read a' = m.read a' := by
  induction m with
  | nil => simp [write, read, hne]
  | cons c rest ih =>
    obtain ⟨k, v⟩ := c
    simp only [write]
    split
    · simp [read, hne]
    · split
      · next heq => subst heq; simp [read, hne]
      · simp only [read, ih]

theorem read_writeBytes_below (m : Memory) (bs : List Byte) {a a' : Nat} (h : a' < a) :
    (m.writeBytes a bs).read a' = m.read a' := by
  induction bs generalizing m a with
  | nil => rfl
  | cons b bs ih =>
    rw [writeBytes, ih _ (Nat.lt_succ_of_lt h), read_write_other m b (Nat.ne_of_lt h)]

/-- Bytes written are read back. -/
theorem readBytes_writeBytes (m : Memory) (a : Nat) (bs : List Byte) :
    (m.writeBytes a bs).readBytes a bs.length = some bs := by
  induction bs generalizing m a with
  | nil => rfl
  | cons b bs ih =>
    have h0 : (writeBytes (m.write a b) (a + 1) bs).read a = some b := by
      rw [read_writeBytes_below _ _ (Nat.lt_succ_self a), read_write_same]
    simp only [writeBytes, List.length_cons, readBytes, h0, ih]

theorem wf_writeBytes {m : Memory} (bs : List Byte) {a : Nat} (h : m.wf = true) (ha : a + bs.length ≤ 2 ^ 64) :
    (m.writeBytes a bs).wf = true := by
  induction bs generalizing m a with
  | nil => exact h
  | cons b bs ih =>
    simp only [List.length_cons] at ha
    exact ih (wf_write b h (by omega)) (by omega)

/-- `MemWrite` keeps the canonical form. -/
theorem wf_memWrite {m m' : Memory} {addr : DWord} {n v : Nat} (h : m.wf = true) (hw : memWrite m addr n v = some m') :
    m'.wf = true := by
  unfold memWrite at hw
  split at hw
  · next hle =>
    have hlen : ∀ k w, (leBytes k w).length = k := by
      intro k
      induction k with
      | zero => intro w; rfl
      | succ k ih => intro w; simp [leBytes, ih]
    cases hw
    exact wf_writeBytes _ h (by rw [hlen]; exact hle)
  · cases hw

end Sys2Proof.Machine.Memory
end

