-- ==== Sys2Proof/Laws/PerInstr.lean ====
section
/-! SUPPORT. Laws/PerInstr.lean: what holds of each instruction as syntax. -/

namespace Sys2Proof.Laws.FieldsDecode

/-- A well-formed instruction is read back from its five-field tuple and register number (30_encoding.md R57, R58). -/
def Statement (i : Instr) : Prop := i.wf = true → decodeFields i.fields = .ok i

theorem tlbiVale1is (t : Nat) : Statement (.tlbiVale1is t) := by
  intro h
  have ht : t < 32 := of_decide_eq_true h
  simp [decodeFields, Instr.fields, Nat.mod_eq_of_lt ht]

theorem tlbiVale1isnxs (t : Nat) : Statement (.tlbiVale1isnxs t) := by
  intro h
  have ht : t < 32 := of_decide_eq_true h
  simp [decodeFields, Instr.fields, Nat.mod_eq_of_lt ht]

end Sys2Proof.Laws.FieldsDecode
end

