-- ==== Sys2Proof/Laws/Step.lean ====
section
/-! SUPPORT. Laws/Step.lean: everything one step can do, said once. -/

namespace Sys2Proof.Machine

/-- What a step can do. -/
inductive StepOutcome (s : State) : Host.Outcome State Fault Refusal → Prop where
  /-- PE `p` takes its turn. -/
  | turn (p : Nat) (rest : List Event) (hturn : TurnOf s p) (hp : p < s.pes.length ∨ p = s.cur)
      (hrest : s.events = [] ∧ rest = [] ∨ s.events = .instr p :: rest) :
      StepOutcome s (State.turn { s with cur := p, events := rest })
  /-- The turn of a PE that does not exist: nothing happens. -/
  | noPe (p : Nat) (rest : List Event) (hev : s.events = .instr p :: rest) (hp : ¬p < s.pes.length) :
      StepOutcome s (.next { s with events := rest })
  /-- The environment moves. -/
  | move (ev : Event) (rest : List Event) (hev : s.events = ev :: rest) (hne : ∀ p, ev ≠ .instr p) :
      StepOutcome s (.next (State.environment { s with events := rest } ev))

/-- Every step is one of `StepOutcome`. -/
theorem step_outcome (s : State) : StepOutcome s (step s) := by
  unfold step
  split
  · next h =>
    have hs : s = { s with cur := s.cur, events := [] } := by rw [← h]
    have := StepOutcome.turn (s := s) s.cur [] (.inl ⟨h, rfl⟩) (.inr rfl) (.inl ⟨h, rfl⟩)
    rwa [← hs] at this
  · next p rest h =>
    split
    · next hp => exact .turn p rest (.inr ⟨rest, h⟩) (.inl hp) (.inr h)
    · next hp => exact .noPe p rest h hp
  · next ev rest hne h => exact .move ev rest h (fun p hp => hne p hp)

/-- What a turn can do. -/
inductive TurnOutcome (s : State) : Host.Outcome State Fault Refusal → Prop where
  /-- The PE waits at a completion point. -/
  | wait (h : s.waiting = true) : TurnOutcome s (.next s)
  /-- It executes the instruction its fetch found. -/
  | exec (i : Instr) (h : s.fetch = .instr i) : TurnOutcome s (exec i s)
  | fault (f : Fault) (h : s.fetch = .fault f) : TurnOutcome s (.fault f)
  | refused (r : Refusal) (h : s.fetch = .refused r) : TurnOutcome s (.refused r)

theorem fetch_eq_wait_iff (s : State) : s.fetch = .wait ↔ s.waiting = true := by
  unfold State.fetch
  split
  · next h => simp [h]
  · next h =>
    simp only [h]
    split
    · simp
    · split
      · simp
      · split <;> simp

theorem turn_outcome (s : State) : TurnOutcome s s.turn := by
  unfold State.turn
  split
  · next h => exact .wait ((fetch_eq_wait_iff s).mp h)
  · next i h => exact .exec i h
  · next f h => exact .fault f h
  · next r h => exact .refused r h

/-- A fetch that finds an instruction found its four bytes at an aligned `pc`. -/
theorem fetch_eq_instr {s : State} {i : Instr} (h : s.fetch = .instr i) :
    s.waiting = false ∧ aligned4 s.regs.pc = true
      ∧ ∃ bs, Memory.readBytes s.mem s.regs.pc.toNat 4 = some bs ∧ decodeBytes bs = .ok i := by
  unfold State.fetch at h
  split at h
  · cases h
  · next hw =>
    split at h
    · cases h
    · next ha =>
      split at h
      · cases h
      · next bs hbs =>
        split at h
        · next j hj =>
          cases h
          exact ⟨by simpa using hw, by simpa using ha, bs, hbs, hj⟩
        · cases h

/-! ### The environment's moves -/

/-- What no move of the environment changes. -/
structure SameMachine (s t : State) : Prop where
  cfg : t.cfg = s.cfg
  mem : t.mem = s.mem
  cur : t.cur = s.cur
  events : t.events = s.events
  freeCount : t.freeCount = s.freeCount
  peCount : t.pes.length = s.pes.length
  smmuCount : t.smmus.length = s.smmus.length

theorem SameMachine.refl (s : State) : SameMachine s s := ⟨rfl, rfl, rfl, rfl, rfl, rfl, rfl⟩

theorem SameMachine.setPe (s : State) (p : Nat) (v : Pe) : SameMachine s (s.setPe p v) :=
  ⟨rfl, rfl, rfl, rfl, rfl, by simp, rfl⟩

theorem SameMachine.setMmu (s : State) (a : AgentId) (m : Mmu) : SameMachine s (s.setMmu a m) :=
  ⟨by simp, by simp, by simp, by simp, by simp, by simp, by simp⟩

theorem setRegs_cases (s : State) (p : Nat) (r : PeRegs) :
    (r.legal s.cfg = true ∧ s.setRegs p r = s.setPe p { s.pe p with regs := r }) ∨ s.setRegs p r = s := by
  unfold State.setRegs
  split
  · next h => exact .inl ⟨h, rfl⟩
  · exact .inr rfl

theorem envReturn_cases (s : State) (p : Nat) :
    (∃ r, (s.pe p).regs.exceptionReturn = some r ∧ r.legal s.cfg = true
        ∧ s.envReturn p = s.setPe p { s.pe p with regs := r })
      ∨ s.envReturn p = s := by
  unfold State.envReturn
  split
  · exact .inr rfl
  · next r h =>
    rcases setRegs_cases s p r with ⟨hl, he⟩ | he
    · exact .inl ⟨r, h, hl, he⟩
    · exact .inr he

theorem envInvalidate_cases (s : State) (a : AgentId) (p : Nat) (op : TlbiOp) :
    (op ∈ (s.pe p).pending ∧ a ∈ scope s.cfg op ∧ s.envInvalidate a p op
        = s.setMmu a { s.mmu a with tlb := (s.mmu a).tlb.filter (fun e => !required s.cfg op a e) })
      ∨ s.envInvalidate a p op = s := by
  unfold State.envInvalidate
  split
  · next h => exact .inl ⟨h.1, h.2, rfl⟩
  · exact .inr rfl

theorem envStart_cases (s : State) (a : AgentId) (m : Access) :
    ((∀ e ∈ m.used, e ∈ (s.mmu a).tlb)
        ∧ s.envStart a m = s.setMmu a { s.mmu a with inflight := (s.mmu a).inflight ++ [m] })
      ∨ s.envStart a m = s := by
  unfold State.envStart
  split
  · next h => exact .inl ⟨by simpa [List.all_eq_true] using h, rfl⟩
  · exact .inr rfl

theorem envComplete_cases (s : State) (p : Nat) (op : TlbiOp) :
    (s.canComplete op = true
        ∧ s.envComplete p op = s.setPe p { s.pe p with pending := (s.pe p).pending.erase op })
      ∨ s.envComplete p op = s := by
  unfold State.envComplete
  split
  · next h => exact .inl ⟨h, rfl⟩
  · exact .inr rfl

/-- A move of the environment, by the part of the machine it can change: an agent's TLB and accesses, a PE's registers
(by software or by a return), or a PE's pending operations (by a completion); or nothing. -/
inductive MoveOutcome (s : State) (ev : Event) : State → Prop where
  | nothing : MoveOutcome s ev s
  | mmu (a : AgentId) (m : Mmu)
      (htlb : (∃ e, ev = .fill a e ∧ m = { s.mmu a with tlb := fillTlb s.cfg e (s.mmu a).tlb })
        ∨ (∃ e, ev = .drop a e ∧ m = { s.mmu a with tlb := (s.mmu a).tlb.erase e })
        ∨ (∃ p op, ev = .invalidate a p op ∧ op ∈ (s.pe p).pending ∧ a ∈ scope s.cfg op
            ∧ m = { s.mmu a with tlb := (s.mmu a).tlb.filter (fun e => !required s.cfg op a e) })
        ∨ (∃ n, ev = .start a n ∧ (∀ e ∈ n.used, e ∈ (s.mmu a).tlb)
            ∧ m = { s.mmu a with inflight := (s.mmu a).inflight ++ [n] })
        ∨ (∃ n, ev = .finish a n ∧ m = { s.mmu a with inflight := (s.mmu a).inflight.erase n })) :
      MoveOutcome s ev (s.setMmu a m)
  | regs (p : Nat) (r : PeRegs) (hl : r.legal s.cfg = true)
      (hev : ev = .software p r ∨ (ev = .exceptionReturn p ∧ (s.pe p).regs.exceptionReturn = some r)) :
      MoveOutcome s ev (s.setPe p { s.pe p with regs := r })
  | complete (p : Nat) (op : TlbiOp) (hev : ev = .complete p op) (hc : s.canComplete op = true) :
      MoveOutcome s ev (s.setPe p { s.pe p with pending := (s.pe p).pending.erase op })

/-- Every move of the environment is one of `MoveOutcome`. -/
theorem environment_outcome (s : State) (ev : Event) : MoveOutcome s ev (s.environment ev) := by
  cases ev with
  | instr p => exact .nothing
  | fill a e => exact .mmu a _ (.inl ⟨e, rfl, rfl⟩)
  | drop a e => exact .mmu a _ (.inr (.inl ⟨e, rfl, rfl⟩))
  | invalidate a p op =>
    show MoveOutcome s _ (s.envInvalidate a p op)
    rcases envInvalidate_cases s a p op with ⟨h1, h2, h⟩ | h
    · rw [h]; exact .mmu a _ (.inr (.inr (.inl ⟨p, op, rfl, h1, h2, rfl⟩)))
    · rw [h]; exact .nothing
  | start a m =>
    show MoveOutcome s _ (s.envStart a m)
    rcases envStart_cases s a m with ⟨h1, h⟩ | h
    · rw [h]; exact .mmu a _ (.inr (.inr (.inr (.inl ⟨m, rfl, h1, rfl⟩))))
    · rw [h]; exact .nothing
  | finish a m => exact .mmu a _ (.inr (.inr (.inr (.inr ⟨m, rfl, rfl⟩))))
  | complete p op =>
    show MoveOutcome s _ (s.envComplete p op)
    rcases envComplete_cases s p op with ⟨hc, h⟩ | h
    · rw [h]; exact .complete p op rfl hc
    · rw [h]; exact .nothing
  | exceptionReturn p =>
    show MoveOutcome s _ (s.envReturn p)
    rcases envReturn_cases s p with ⟨r, hr, hl, h⟩ | h
    · rw [h]; exact .regs p r hl (.inr ⟨rfl, hr⟩)
    · rw [h]; exact .nothing
  | software p r =>
    show MoveOutcome s _ (s.setRegs p r)
    rcases setRegs_cases s p r with ⟨hl, h⟩ | h
    · rw [h]; exact .regs p r hl (.inl rfl)
    · rw [h]; exact .nothing

/-- No move of the environment changes the configuration, memory, whose turn it is, or how many agents there are. -/
theorem environment_sameMachine (s : State) (ev : Event) : SameMachine s (s.environment ev) := by
  have h := environment_outcome s ev
  generalize s.environment ev = t at h
  cases h with
  | nothing => exact .refl s
  | mmu a m _ => exact .setMmu s a m
  | regs p r _ _ => exact .setPe s p _
  | complete p op _ _ => exact .setPe s p _

end Sys2Proof.Machine
end

