-- ==== Sys2Proof/Tests/Slice0.lean ====
section
/-! SUPPORT. Tests/Slice0.lean: vectors of 95_test_vectors.md, ill-formed terms that the checks refuse, and for each
obligation with hypotheses a state that meets them. -/

namespace Sys2Proof.Tests

open Sys2Proof Sys2Proof.Machine

/-! ### Small states -/

/-- No feature, no EL2, no EL3; two PEs, each in the other's domain, and System MMU 0 in that of PE 0. -/
def cfg0 : Config :=
  { haveEL2 := false, haveEL3 := false, featXS := false, featHCX := false, featFGT := false, featTTL := false,
    featLPA2 := false, featD128 := false, featRME := false, secureEL2Note := false, asid16 := true,
    pes := [⟨[.pe 0, .pe 1, .smmu 0]⟩, ⟨[.pe 0, .pe 1]⟩], smmuCount := 1, securityStateNoEL3 := .nonSecure,
    completionPoint := [], addressMap := [], resetPC := 0 }

/-- "EL2, EL3, XS, HCX, FGT" of section 5, with FEAT_TTL. -/
def cfgX : Config :=
  { cfg0 with haveEL2 := true, haveEL3 := true, featXS := true, featHCX := true, featFGT := true, featTTL := true }

/-- Registers at a level, at the instruction address 0x1000, `NS = 1`, all other fields 0. -/
def regs (el : EL) : PeRegs :=
  { PeRegs.atReset cfg0 with
    pc := 0x1000, pstate := ⟨el, true, false, false, false, false⟩, scr := ⟨true, false, false, false, false⟩ }

/-- PE 0 with these registers, PE 1 at EL1, one System MMU, nothing pending, no TLB entry, no memory. -/
def st (cfg : Config) (r : PeRegs) : State :=
  { cfg := cfg, mem := [], pes := [⟨r, ⟨[], []⟩, [], none⟩, ⟨regs .el1, ⟨[], []⟩, [], none⟩], smmus := [⟨[], []⟩],
    cur := 0, events := [], freeCount := 0 }

/-- `st`, with a word at 0x1000. -/
def stW (cfg : Config) (r : PeRegs) (w : Word) : State :=
  { st cfg r with mem := Memory.writeBytes [] 0x1000 (bytesOfWord w) }

/-- The entry `e1` of section 6. -/
def e1 : TlbEntry :=
  { stage1 := true, d128 := false, final := true, nG := true, asid := 0x42, security := .nonSecure, regime := .el10,
    vmid := 0, granule := .g4K, level := 3, log2size := 12, vaBase := 0x007FFF12345000, payload := 0 }

/-- The fifteen entries of section 6, in order. -/
def entries : List TlbEntry :=
  [e1, { e1 with asid := 0x43 }, { e1 with nG := false, asid := 0x99 }, { e1 with final := false, level := 2 },
   { e1 with stage1 := false }, { e1 with d128 := true },
   { e1 with level := 2, log2size := 21, vaBase := 0x007FFF12200000 }, { e1 with vaBase := 0x007FFF12346000 },
   { e1 with regime := .el20 }, { e1 with security := .secure }, { e1 with vmid := 5 },
   { e1 with granule := .g16K, log2size := 14, vaBase := 0x007FFF12344000 },
   { e1 with granule := .g64K, log2size := 16, vaBase := 0x007FFF12340000 }, { e1 with regime := .other },
   { e1 with asid := 0x142 }]

/-- A record of section 6 from its operand, regime and VMID, issued by PE 0. -/
def op6 (xt : DWord) (regime : Regime) (vmid : Option (BitVec 16)) : TlbiOp :=
  { issuer := 0, security := .nonSecure, regime := regime, vmid := vmid, level := .last, attr := .allAttr,
    asid := operandAsid xt, ttl := operandTtl xt, vapg := operandVapg xt, eel2 := false, peEel2 := [false, false] }

/-- The operations A to G of section 6. -/
def opA : TlbiOp := op6 0x00427007FFF12345 .el10 none
def opB : TlbiOp := op6 0x00420007FFF12345 .el10 none
def opC : TlbiOp := op6 0x00420007FFF12345 .el10 (some 5)
def opD : TlbiOp := op6 0x00420007FFF12345 .el20 none
def opE : TlbiOp := op6 0x00426007FFF12345 .el10 none
def opF : TlbiOp := op6 0x0042B007FFF12345 .el10 none
def opG : TlbiOp := op6 0x00428007FFF12345 .el10 none

/-- The rows, numbered from 1, that an operation requires agent PE 0 to drop. -/
def rows (cfg : Config) (op : TlbiOp) : List Nat :=
  (List.range 15).filterMap (fun n => if required cfg op (.pe 0) (entries.getD n e1) then some (n + 1) else none)

/-- The outcome of section 5 as the vectors write it: the record's regime, VMID and attribute, or the exception. -/
def outcome (i : Instr) (s : State) : Option ((Regime × Option (BitVec 16) × XsAttr) ⊕ Raised) :=
  match exec i s with
  | .next t =>
    match (t.pe 0).raised with
    | some why => some (.inr why)
    | none => (t.pe 0).pending.head?.map (fun op => .inl (op.regime, op.vmid, op.attr))
  | _ => none

/-! ### WellFormed: ill-formed terms -/

theorem test_wf_register_number : (Instr.tlbiVale1is 32).wf = false ∧ (Instr.tlbiVale1isnxs 32).wf = false
    ∧ (Instr.tlbiVale1is 31).wf = true := by decide

theorem test_wf_config : ({ cfg0 with pes := [] } : Config).wf = false
    ∧ ({ cfg0 with pes := [⟨[.pe 1]⟩] } : Config).wf = false
    ∧ ({ cfg0 with smmuCount := 0 } : Config).wf = false
    ∧ ({ cfg0 with resetPC := 2 } : Config).wf = false
    ∧ cfg0.wf = true ∧ cfgX.wf = true ∧ Config.atReset.wf = true := by decide

theorem test_wf_entry : ({ e1 with d128 := true } : TlbEntry).wf cfg0 = false
    ∧ ({ e1 with log2size := 11 } : TlbEntry).wf cfg0 = false
    ∧ ({ e1 with granule := .g16K } : TlbEntry).wf cfg0 = false
    ∧ ({ e1 with log2size := 56, vaBase := 0 } : TlbEntry).wf cfg0 = false
    ∧ ({ e1 with vaBase := 0x800 } : TlbEntry).wf cfg0 = false
    ∧ ({ e1 with asid := 0x142 } : TlbEntry).wf { cfg0 with asid16 := false } = false
    ∧ e1.wf cfg0 = true := by decide

/-! ### Decode (30_encoding.md R57 to R60, R71; 95_test_vectors.md section 2) -/

/-- Written out bit by bit from R57, R59: 1101010100, L, op0, op1, CRn, CRm, op2, Rt = 3. -/
theorem test_decode_vale1is_bits : decodeWord 0b1101010100_0_01_000_1000_0011_101_00011#32 = .ok (.tlbiVale1is 3) := rfl

/-- Written out bit by bit from R58, R59. -/
theorem test_decode_vale1isnxs_bits :
    decodeWord 0b1101010100_0_01_000_1001_0011_101_00011#32 = .ok (.tlbiVale1isnxs 3) := rfl

theorem test_decode_bytes : decodeBytes [0xBF#8, 0x83#8, 0x08#8, 0xD5#8] = .ok (.tlbiVale1is 31)
    ∧ decodeBytes [0xA9#8, 0x93#8, 0x08#8, 0xD5#8] = .ok (.tlbiVale1isnxs 9)
    ∧ decodeBytes [0xBF#8, 0x83#8, 0x08#8] = .error .truncated := ⟨rfl, rfl, rfl⟩

theorem test_decode_neighbours : decodeWord 0xD5088380#32 = .error .op2 ∧ decodeWord 0xD50883E0#32 = .error .op2
    ∧ decodeWord 0xD50887A0#32 = .error .crm ∧ decodeWord 0xD50C83A0#32 = .error .op1
    ∧ decodeWord 0xD5033B9F#32 = .error .op0 ∧ decodeWord 0x550883A0#32 = .error .notSystem := ⟨rfl, rfl, rfl, rfl, rfl, rfl⟩

theorem test_encode : encode (.tlbiVale1is 30) = 0xD50883BE#32 ∧ encode (.tlbiVale1isnxs 17) = 0xD50893B1#32 := by
  decide

theorem test_table_words : decodeTableWord 32 0xD50883A0 = some (.tlbiVale1is 0)
    ∧ decodeTableWord 32 0xD50893A0 = some (.tlbiVale1isnxs 0) := by decide

/-! ### Operand and TTL (sections 3 and 4) -/

theorem test_operand_fields : (operandAsid 0x00007FF800000200 = 0 ∧ operandTtl 0x00006FF800000200 = 6
      ∧ va56 (operandVapg 0x00006FF800000200) = 0xFF800000200000)
    ∧ (operandAsid 0xBEEF400008000000 = 0xBEEF ∧ operandTtl 0xBEEF400008000000 = 4
      ∧ va56 (operandVapg 0xBEEF400008000000) = 0x8000000000) := by decide

theorem test_register_31 : (regs .el1).readX 31 = 0 ∧ (regs .el1).writeX 31 5 = regs .el1
    ∧ ((regs .el1).writeX 30 5).readX 30 = 5 := by decide

theorem test_ttl : ttlInfo false 4 = none ∧ ttlInfo true 4 = some (.g4K, 0) ∧ ttlInfo false 7 = some (.g4K, 3)
    ∧ ttlInfo true 8 = none ∧ ttlInfo false 9 = none ∧ ttlInfo true 9 = some (.g16K, 1) ∧ ttlInfo true 12 = none
    ∧ ttlInfo false 15 = some (.g64K, 3) ∧ info cfg0 opA = .nothingRequired := by decide

/-! ### Outcomes (section 5), one step each -/

/-- X12, ESR_EL2 and the vector of P3: trapped, `ELR` at the instruction, at `VBAR_EL2 + 0x400`. -/
theorem test_vale1is_trap :
    let s := st cfgX { regs .el1 with hcr := ⟨false, false, true, false⟩, exc2 := { (regs .el1).exc2 with vbar := 0x8000 } }
    ∃ t, exec (.tlbiVale1is 3) s = .next t ∧ (t.pe 0).regs.exc2.esr = 0x621A2066 ∧ (t.pe 0).regs.exc2.elr = 0x1000
      ∧ (t.pe 0).regs.pc = 0x8400 ∧ (t.pe 0).pending = [] :=
  ⟨_, rfl, by decide, by decide, by decide, by decide⟩

/-- X33 and X7. -/
theorem test_vale1is_runs :
    outcome (.tlbiVale1is 0) (st cfgX { regs .el2 with hcr := ⟨true, true, false, false⟩ })
        = some (.inl (.el20, none, .allAttr))
      ∧ outcome (.tlbiVale1is 0) (st { cfgX with featXS := false } { regs .el1 with vmid := 7 })
        = some (.inl (.el10, some 7, .allAttr)) := by decide

/-- X4 and X44: without FEAT_XS, also under a trap control. -/
theorem test_vale1isnxs_undefined :
    outcome (.tlbiVale1isnxs 0) (st { cfgX with featXS := false } { regs .el1 with hcr := ⟨false, false, true, false⟩ })
      = some (.inr (.undefined .el1)) := by decide

/-- EL1 with `FGTEn` and `HFGITR_EL2.TLBIVALE1IS` set, and these values of `HXEn`, `FGTnXS`. -/
def fineRegs (hxen fgtnxs : Bool) : PeRegs :=
  { regs .el1 with scr := ⟨true, false, false, true, hxen⟩, hfgitr := ⟨true⟩, hcrx := ⟨false, fgtnxs⟩ }

/-- X20, X21, X22: the fine-grained trap of the nXS variant. -/
theorem test_vale1isnxs_fine_trap :
    outcome (.tlbiVale1isnxs 0) (st cfgX (fineRegs true true)) = some (.inl (.el10, some 0, .excludeXS))
      ∧ outcome (.tlbiVale1isnxs 0) (st cfgX (fineRegs false true))
        = some (.inr (.systemAccessTrap .el1 .el2 0x18 (.tlbiVale1isnxs 0)))
      ∧ outcome (.tlbiVale1isnxs 0) (st { cfgX with featHCX := false } (fineRegs false false))
        = some (.inl (.el10, some 0, .excludeXS)) := ⟨by decide, by decide, by decide⟩

/-! ### Which entries (section 6), completion (section 7), the Note (section 8) -/

theorem test_match_ttl : rows { cfg0 with featTTL := true } opA = [1, 3, 11]
    ∧ rows { cfg0 with featTTL := true } opB = [1, 3, 7, 11, 12, 13] ∧ rows { cfg0 with featTTL := true } opC = [11]
    ∧ rows { cfg0 with featTTL := true } opD = [9] ∧ rows { cfg0 with featTTL := true } opE = [7]
    ∧ rows { cfg0 with featTTL := true } opF = [12]
    ∧ rows { cfg0 with featTTL := true } opG = [1, 3, 7, 11, 12, 13] := by decide

theorem test_match_d128 : rows { cfg0 with featTTL := true, featD128 := true } opB = [1, 3, 6, 7, 11, 12, 13]
    ∧ rows { cfg0 with featTTL := true, featD128 := true } opG = [1, 3, 7, 11, 12, 13] := by decide

theorem test_match_no_ttl : rows cfg0 opA = [] ∧ rows cfg0 opB = [1, 3, 7, 11, 12, 13] ∧ rows cfg0 opC = [11]
    ∧ rows cfg0 opD = [9] := by decide

theorem test_covers : covers { e1 with vaBase := 0x007FFFC0000000, log2size := 30 } opA = false
    ∧ covers { e1 with vaBase := 0x007FFF00000000, log2size := 30 } opA = true
    ∧ covers { e1 with vaBase := 0, log2size := 55 } opA = true
    ∧ covers { e1 with vaBase := 0x80000000000000, log2size := 55 } opA = false := by decide

/-- The two PEs of section 7, with these TLBs, and these accesses of PE 1. -/
def st7 (tlb0 tlb1 : List TlbEntry) (fl : List Access) : State :=
  { st { cfg0 with featTTL := true, featXS := true, smmuCount := 0, pes := [⟨[.pe 0, .pe 1]⟩, ⟨[.pe 0, .pe 1]⟩] } (regs .el1)
    with pes := [⟨regs .el1, ⟨tlb0, []⟩, [opA], none⟩, ⟨regs .el1, ⟨tlb1, fl⟩, [], none⟩], smmus := [] }

def e2 : TlbEntry := { e1 with asid := 0x43 }
def e8 : TlbEntry := { e1 with vaBase := 0x007FFF12346000 }

/-- K1, K2, K3, K4, K5. -/
theorem test_completion :
    (st7 [e1, e8] [e1, e2] [⟨true, [e1]⟩, ⟨false, [e2]⟩]).canComplete opA = false
      ∧ (st7 [e8] [e2] [⟨true, [e1]⟩, ⟨false, [e2]⟩]).canComplete opA = false
      ∧ (st7 [e8] [e2] [⟨true, [e1]⟩, ⟨false, [e2]⟩]).canComplete { opA with attr := .excludeXS } = true
      ∧ (st7 [e8] [e2] [⟨false, [e2]⟩]).canComplete opA = true
      ∧ (st7 [e8] [e2] [⟨false, [e1]⟩]).canComplete { opA with attr := .excludeXS } = false := by decide

/-- Section 8: the record of N1 to N5, and of N6 to N9 with the other `EEL2` and VMID 5. -/
theorem test_secure_note :
    let cfg := { cfgX with secureEL2Note := true }
    let f := { e1 with security := .secure }
    let lo := { opB with security := .secure, peEel2 := [false, true] }
    let hi := { lo with eel2 := true, vmid := some 5, peEel2 := [true, false] }
    required cfg lo (.pe 0) { f with vmid := 5 } = true ∧ required cfg lo (.pe 1) f = false
      ∧ required cfg lo (.smmu 0) f = true ∧ required cfg lo (.smmu 0) { f with vmid := 5 } = false
      ∧ required cfg hi (.pe 0) { f with vmid := 5 } = true ∧ required cfg hi (.pe 1) { f with vmid := 5 } = false
      ∧ required cfg hi (.smmu 0) { f with vmid := 5 } = true ∧ required cfg hi (.smmu 0) f = false := by decide

/-! ### The opcode table's words run first after reset -/

theorem test_reset_runs_vale1is : ∃ t, step (State.reset.withFetchWord 32 0xD50883A0) = .next t
    ∧ (t.pe 0).regs.pc = 4 ∧ (t.pe 0).pending.length = 1 := ⟨_, rfl, by decide, by decide⟩

theorem test_reset_runs_vale1isnxs : ∃ t, step (State.reset.withFetchWord 32 0xD50893BF) = .next t
    ∧ (t.pe 0).regs.pc = 4 ∧ (t.pe 0).pending.length = 1 := ⟨_, rfl, by decide, by decide⟩

/-! ### For each obligation with hypotheses, states that meet them -/

theorem witness_DecodeOfEncodeIsTheInstruction : (Instr.tlbiVale1is 0).wf = true ∧ (Instr.tlbiVale1isnxs 31).wf = true := by
  decide

/-- EL1 of `cfgX` with nothing trapped, and PE 1's turn next. -/
def stTurn : State := { stW cfgX (regs .el1) 0xD50893A5 with events := [.instr 0] }

/-- Both forms of a turn, and both ways not to wait. -/
theorem witness_StepRunsTheDecodedInstruction :
    ((stW cfgX (regs .el1) 0xD50893A5).events = []
        ∧ decodeBytes (bytesOfWord 0xD50893A5) = .ok (.tlbiVale1isnxs 5)
        ∧ Memory.readBytes stTurn.mem 0x1000 4 = some (bytesOfWord 0xD50893A5)
        ∧ (regs .el1).pc.toNat % 4 = 0 ∧ (regs .el1).pc ∉ cfgX.completionPoint)
      ∧ stTurn.events = .instr 0 :: [] ∧ 0 < stTurn.pes.length
      ∧ (let s1 := stW { cfgX with completionPoint := [0x1000] } (regs .el1) 0xD50893A5
         s1.regs.pc ∈ s1.cfg.completionPoint ∧ (s1.pe s1.cur).pending = []) :=
  ⟨⟨rfl, rfl, by decide, by decide, by decide⟩, rfl, by decide, by decide, rfl⟩

/-- PE 0 stands at a completion point with an operation pending. -/
def stWait : State :=
  { st7 [] [] [] with cfg := { cfg0 with completionPoint := [0x1000] } }

theorem witness_TurnsThatDoNotExecute :
    (stWait.events = [] ∧ stWait.regs.pc ∈ stWait.cfg.completionPoint ∧ (stWait.pe stWait.cur).pending ≠ [])
      ∧ (let s := st cfg0 { regs .el1 with pc := 0x1002 }
         s.events = [] ∧ s.regs.pc ∉ s.cfg.completionPoint ∧ s.regs.pc.toNat % 4 ≠ 0)
      ∧ (let s := st cfg0 { regs .el1 with pc := 0xFFFFFFFFFFFFFFFC }
         s.events = [] ∧ s.regs.pc ∉ s.cfg.completionPoint ∧ s.regs.pc.toNat % 4 = 0
           ∧ Memory.readBytes s.mem s.regs.pc.toNat 4 = none)
      ∧ (let s := stW cfg0 (regs .el1) 0xD50883C0
         s.events = [] ∧ s.regs.pc ∉ s.cfg.completionPoint ∧ s.regs.pc.toNat % 4 = 0
           ∧ Memory.readBytes s.mem s.regs.pc.toNat 4 = some (bytesOfWord 0xD50883C0)
           ∧ decodeBytes (bytesOfWord 0xD50883C0) = .error .op2) :=
  ⟨by decide, by decide, by decide, rfl, by decide, by decide, by decide, rfl⟩

/-- After reset, and at a misaligned `pc` whose multiple of 4 is a completion point. -/
theorem witness_PlacedWordRunsNext : State.reset.cur < State.reset.pes.length
    ∧ decodeTableWord 32 0xD50883BF = some (.tlbiVale1is 31)
    ∧ (let s := st { cfg0 with completionPoint := [0x1000] } { regs .el1 with pc := 0x1003 }
       s.cur < s.pes.length ∧ s.regs.pc.toNat / 4 * 4 = 0x1000) := by decide

/-- Without and with EL2 enabled, and under the `FnXS` override; register 0 and register 31. -/
theorem witness_Vale1isRunsAtEl1 :
    (let s := st cfg0 (regs .el1)
     0 < 32 ∧ s.cur < s.pes.length ∧ s.regs.pstate.el = .el1 ∧ ¬PlainTraps s.cfg s.regs ∧ ¬NoSecurityState s.cfg s.regs
       ∧ ¬EL2On s.cfg s.regs)
      ∧ (let s := st cfgX { regs .el1 with scr := ⟨true, false, false, false, true⟩, hcrx := ⟨true, false⟩ }
         31 < 32 ∧ s.cur < s.pes.length ∧ s.regs.pstate.el = .el1 ∧ ¬PlainTraps s.cfg s.regs
           ∧ ¬NoSecurityState s.cfg s.regs ∧ EL2On s.cfg s.regs ∧ HcrxOn s.cfg s.regs) := by decide

theorem witness_Vale1isRunsAtEl2AndEl3 :
    (let s := st cfgX { regs .el2 with hcr := ⟨true, true, false, false⟩ }
     s.cur < s.pes.length ∧ s.regs.pstate.el = .el2 ∧ ¬NoSecurityState s.cfg s.regs
       ∧ EL2On s.cfg s.regs ∧ s.regs.hcr.e2h = true ∧ s.regs.hcr.tge = true)
      ∧ (let s := st cfgX { regs .el3 with hcr := ⟨true, false, false, false⟩ }
         s.cur < s.pes.length ∧ s.regs.pstate.el = .el3 ∧ ¬NoSecurityState s.cfg s.regs
           ∧ ¬(EL2On s.cfg s.regs ∧ s.regs.hcr.e2h = true ∧ s.regs.hcr.tge = true)) := by decide

theorem witness_Vale1isnxsRunsAtEl1 :
    let s := st cfgX (fineRegs true true)
    s.cur < s.pes.length ∧ s.cfg.featXS = true ∧ s.regs.pstate.el = .el1 ∧ ¬NxsTraps s.cfg s.regs
      ∧ ¬NoSecurityState s.cfg s.regs := by decide

theorem witness_Vale1isnxsRunsAtEl2AndEl3 :
    (let s := st cfgX { regs .el2 with hcr := ⟨true, true, false, false⟩ }
     s.cfg.featXS = true ∧ s.cur < s.pes.length ∧ s.regs.pstate.el = .el2 ∧ ¬NoSecurityState s.cfg s.regs
       ∧ EL2On s.cfg s.regs ∧ s.regs.hcr.e2h = true ∧ s.regs.hcr.tge = true)
      ∧ (let s := st cfgX { regs .el3 with hcr := ⟨true, true, false, false⟩, scr := ⟨false, false, false, false, false⟩ }
         s.cfg.featXS = true ∧ s.cur < s.pes.length ∧ s.regs.pstate.el = .el3 ∧ ¬NoSecurityState s.cfg s.regs
           ∧ ¬(EL2On s.cfg s.regs ∧ s.regs.hcr.e2h = true ∧ s.regs.hcr.tge = true)) := by decide

theorem witness_UndefinedAtEl0 :
    (let s := st cfgX { regs .el0 with hcr := ⟨false, true, true, true⟩ }
     s.cur < s.pes.length ∧ s.regs.pstate.el = .el0 ∧ EL2On s.cfg s.regs ∧ s.regs.hcr.tge = true)
      ∧ (let s := st cfg0 { regs .el0 with hcr := ⟨false, true, false, false⟩ }
         s.cur < s.pes.length ∧ s.regs.pstate.el = .el0 ∧ ¬(EL2On s.cfg s.regs ∧ s.regs.hcr.tge = true)) := by decide

theorem witness_NxsUndefinedWithoutXS :
    (let s := st cfg0 (regs .el3)
     s.cur < s.pes.length ∧ s.cfg.featXS = false ∧ s.regs.pstate.el ≠ .el0)
      ∧ (st cfg0 (regs .el0)).cfg.featXS = false := by decide

/-- By each of the three controls. -/
theorem witness_Vale1isTrapsToEl2 :
    (let s := st cfgX { regs .el1 with hcr := ⟨false, false, true, false⟩ }
     s.cur < s.pes.length ∧ s.regs.pstate.el = .el1 ∧ PlainTraps s.cfg s.regs)
      ∧ (let s := st cfgX { regs .el1 with hcr := ⟨false, false, false, true⟩ }
         s.cur < s.pes.length ∧ s.regs.pstate.el = .el1 ∧ PlainTraps s.cfg s.regs)
      ∧ (let s := st cfgX (fineRegs true true)
         s.cur < s.pes.length ∧ s.regs.pstate.el = .el1 ∧ PlainTraps s.cfg s.regs) := by decide

theorem witness_Vale1isnxsTrapsToEl2 :
    (let s := st cfgX { regs .el1 with hcr := ⟨false, false, false, true⟩ }
     s.cur < s.pes.length ∧ s.cfg.featXS = true ∧ s.regs.pstate.el = .el1 ∧ NxsTraps s.cfg s.regs)
      ∧ (let s := st cfgX (fineRegs true false)
         s.cur < s.pes.length ∧ s.cfg.featXS = true ∧ s.regs.pstate.el = .el1 ∧ NxsTraps s.cfg s.regs)
      ∧ (let s := st cfgX (fineRegs false true)
         s.cur < s.pes.length ∧ s.cfg.featXS = true ∧ s.regs.pstate.el = .el1 ∧ NxsTraps s.cfg s.regs) := ⟨by decide, by decide, by decide⟩

theorem witness_OperandFieldsTileTheRegister : let s := st cfgX (regs .el1)
    ∃ t op, s.cur < s.pes.length ∧ exec (.tlbiVale1is 30) s = .next t ∧ op ∉ (s.pe s.cur).pending
      ∧ op ∈ (t.pe s.cur).pending :=
  ⟨_, (st cfgX (regs .el1)).tlbiOp .nonSecure .allAttr 30, by decide, rfl, by decide, by decide⟩

/-- `SCR_EL3.{NSE, NS} = {1, 0}` under FEAT_RME. -/
def stReserved (el : EL) : State :=
  st { cfgX with featRME := true } { regs el with scr := ⟨false, true, false, false, false⟩ }

/-- A refusal; EL2 without FEAT_XS for `TLBI VALE1IS`; EL1 untrapped and EL3 with it for both. -/
theorem witness_ExecStopsOnlyWithoutSecurityState :
    exec (.tlbiVale1isnxs 0) (stReserved .el1) = .refused .reservedSecurityState
      ∧ (let s := { stReserved .el2 with cfg := { (stReserved .el2).cfg with featXS := false } }
         NoSecurityState s.cfg s.regs ∧ s.cfg.featXS = false ∧ s.regs.pstate.el = .el2)
      ∧ (let s := stReserved .el1
         NoSecurityState s.cfg s.regs ∧ s.cfg.featXS = true ∧ s.regs.pstate.el = .el1 ∧ ¬PlainTraps s.cfg s.regs
           ∧ ¬NxsTraps s.cfg s.regs)
      ∧ (let s := stReserved .el3
         NoSecurityState s.cfg s.regs ∧ s.cfg.featXS = true ∧ s.regs.pstate.el = .el3) :=
  ⟨rfl, by decide, by decide, by decide⟩

/-- An instruction that goes on, for the statements about a next state of `exec`. -/
theorem witness_InstructionsChangeNothingElse :
    (∃ t, exec (.tlbiVale1is 0) (st cfgX (regs .el1)) = .next t)
      ∧ (∃ t, exec (.tlbiVale1is 0) (st cfgX (regs .el0)) = .next t)
      ∧ (st cfgX (regs .el1)).cur < (st cfgX (regs .el1)).pes.length := ⟨⟨_, rfl⟩, ⟨_, rfl⟩, by decide⟩

theorem witness_FineTrapWithoutHcxSparesNxs :
    let s := st { cfgX with featHCX := false } (fineRegs true false)
    s.cur < s.pes.length ∧ s.regs.pstate.el = .el1 ∧ s.cfg.featXS = true ∧ s.cfg.featHCX = false
      ∧ FineTrap s.cfg s.regs ∧ ¬CoarseTrap s.cfg s.regs ∧ ¬NoSecurityState s.cfg s.regs := by decide

theorem witness_FnxsOverrideActsAsNxs :
    let s := st cfgX { regs .el1 with scr := ⟨true, false, false, false, true⟩, hcrx := ⟨true, false⟩ }
    s.regs.pstate.el = .el1 ∧ ¬PlainTraps s.cfg s.regs ∧ s.cfg.featXS = true ∧ s.cfg.featHCX = true
      ∧ HcrxOn s.cfg s.regs ∧ s.regs.hcrx.fnxs = true := by decide

/-- The nXS variant at EL1, `TLBI VALE1IS` at EL2; a next state, and a refusal. -/
theorem witness_FnxsIsReadByVale1isAtEl1Only :
    ((st cfgX (regs .el1)).cur < (st cfgX (regs .el1)).pes.length
        ∧ ∃ u, exec (.tlbiVale1isnxs 3) (st cfgX (regs .el1)) = .next u)
      ∧ ((st cfgX (regs .el2)).regs.pstate.el ≠ .el1 ∧ ∃ u, exec (.tlbiVale1is 3) (st cfgX (regs .el2)) = .next u)
      ∧ exec (.tlbiVale1is 3) (stReserved .el2) = .refused .reservedSecurityState :=
  ⟨⟨by decide, _, rfl⟩, ⟨by decide, _, rfl⟩, rfl⟩

theorem witness_BothVariantsSameInvalidation :
    (let s := st cfgX (regs .el1)
     s.cfg.featXS = true ∧ ¬NoSecurityState s.cfg s.regs ∧ s.regs.pstate.el = .el1 ∧ ¬PlainTraps s.cfg s.regs
       ∧ ¬NxsTraps s.cfg s.regs ∧ ¬(HcrxOn s.cfg s.regs ∧ s.regs.hcrx.fnxs = true))
      ∧ (let s := st cfgX (regs .el3)
         s.cfg.featXS = true ∧ ¬NoSecurityState s.cfg s.regs ∧ s.regs.pstate.el = .el3) := by decide

theorem witness_InstructionsReadNoMemory :
    (∃ u, exec (.tlbiVale1is 1) (st cfgX (regs .el1)) = .next u)
      ∧ exec (.tlbiVale1is 1) (stReserved .el1) = .refused .reservedSecurityState := ⟨⟨_, rfl⟩, rfl⟩

theorem witness_NoOperandValueStops :
    (st cfgX (regs .el2)).cur < (st cfgX (regs .el2)).pes.length
      ∧ ∃ t, exec (.tlbiVale1isnxs 30) (st cfgX (regs .el2)) = .next t := ⟨by decide, _, rfl⟩

/-- Two states that differ in the other PE's program counter. -/
theorem witness_OnlyRemoteEel2Matters :
    let s := st cfgX (regs .el1)
    let s2 := s.setPe 1 { s.pe 1 with regs := { (s.pe 1).regs with pc := 0x2000 } }
    s.cur < s.pes.length ∧ s2.cfg = s.cfg ∧ s2.cur = s.cur ∧ s2.pes.length = s.pes.length
      ∧ s2.pe s.cur = s.pe s.cur ∧ s2.freeCount = s.freeCount
      ∧ (∀ q, q < s.pes.length → (s2.pe q).regs.scr.eel2 = (s.pe q).regs.scr.eel2)
      ∧ (∃ t, exec (.tlbiVale1is 0) s = .next t) ∧ s2 ≠ s :=
  ⟨by decide, rfl, rfl, rfl, rfl, rfl, by decide, ⟨_, rfl⟩, by decide⟩

/-- Each clause at an end of its range. -/
theorem witness_TtlFieldGivesGranuleAndLevel :
    ({ cfg0 with featTTL := true } : Config).featTTL = true
      ∧ (let ttl := fun (v : BitVec 4) => ({ opA with ttl := v } : TlbiOp).ttl.toNat
         (ttl 0 / 4 = 0) ∧ (ttl 3 / 4 = 0) ∧ (ttl 4 / 4 = 1 ∧ ttl 4 % 4 = 0) ∧ (ttl 8 / 4 = 2 ∧ ttl 8 % 4 = 0)
           ∧ (ttl 9 / 4 = 2 ∧ ttl 9 % 4 = 1) ∧ (ttl 12 / 4 = 3 ∧ ttl 12 % 4 = 0) ∧ (ttl 5 / 4 = 1 ∧ ttl 5 % 4 = 1)
           ∧ (ttl 10 / 4 = 2 ∧ ttl 10 % 4 = 2) ∧ (ttl 15 / 4 = 3 ∧ ttl 15 % 4 = 3)) := by decide

theorem witness_IncorrectTtlRequiresNothing :
    (ttlInfo false opA.ttl = some (.g4K, 3) ∧ (entries.getD 11 e1).granule ≠ .g4K ∧ (entries.getD 6 e1).level ≠ 3)
      ∧ cfg0.featTTL = false ∧ opA.ttl ≠ 0 := by decide

theorem witness_LeafEntriesOfTheAsidOrGlobal :
    (entries.getD 3 e1).final = false ∧ (e1.nG = true ∧ e2.asid ≠ opA.asid) ∧ (entries.getD 2 e1).nG = false := by decide

/-- The two ends of the ignored bits: operand bits [1:0] and [3:0] all zero and all one. -/
theorem witness_LowVaBitsByGranule :
    (e1.wf cfg0 = true ∧ e1.granule = .g4K ∧ e1.log2size = 12 ∧ required { cfg0 with featTTL := true } opA (.pe 0) e1 = true)
      ∧ (let e := entries.getD 11 e1
         e.wf cfg0 = true ∧ e.granule = .g16K ∧ (0x007FFF12344#44).toNat / 4 = opB.vapg.toNat / 4
           ∧ (0x007FFF12347#44).toNat / 4 = opB.vapg.toNat / 4)
      ∧ (let e := entries.getD 12 e1
         e.wf cfg0 = true ∧ e.granule = .g64K ∧ (0x007FFF12340#44).toNat / 16 = opB.vapg.toNat / 16
           ∧ (0x007FFF1234F#44).toNat / 16 = opB.vapg.toNat / 16) := by decide

/-- The last block below 2^32 and the first operand page above it; and the largest block. -/
theorem witness_UpperVaBitsMissShortRegimes :
    (let e := { e1 with vaBase := 0xFFFFF000 }
     e.vaBase.toNat < 2 ^ 32 ∧ e.log2size ≤ 32 ∧ 2 ^ 20 ≤ ({ opA with vapg := 0x100000 } : TlbiOp).vapg.toNat)
      ∧ (let e := { e1 with vaBase := 0, log2size := 32 }
         e.vaBase.toNat < 2 ^ 32 ∧ e.log2size ≤ 32) := by decide

theorem witness_ScopeIsTheInnerShareableDomain :
    opA.issuer < cfg0.pes.length
      ∧ (let s := st7 [] [e1] []
         .pe 1 ∈ scope s.cfg opA ∧ e1 ∈ (s.mmu (.pe 1)).tlb ∧ required s.cfg opA (.pe 1) e1 = true)
      ∧ (let s := st7 [] [] []
         let s2 := { s with smmus := [⟨[e1], []⟩] }
         s2.cfg = s.cfg ∧ (∀ a ∈ scope s.cfg opA, s2.mmu a = s.mmu a) ∧ s2 ≠ s) := by decide

theorem witness_SecureEl2NoteExcuses :
    let cfg := { cfgX with secureEL2Note := true }
    let op := { opB with security := .secure, peEel2 := [false, true] }
    (cfg.secureEL2Note = true ∧ op.security = .secure ∧ op.regime = .el10)
      ∧ (cfg.haveEL3 = true ∧ 1 ≠ op.issuer ∧ op.peEel2.getD 1 false ≠ op.eel2)
      ∧ (op.vmid = none ∧ (entries.getD 10 e1).vmid ≠ 0 ∧ e1.vmid = 0)
      ∧ ({ op with vmid := some 5 } : TlbiOp).vmid = some 5 ∧ e1.vmid ≠ 5 := by decide

theorem witness_ExcludeXsCompletesNoLater :
    (let s := st7 [e8] [e2] [⟨false, [e2]⟩]
     s.canComplete { opA with attr := .allAttr } = true
       ∧ ∀ a ∈ scope s.cfg opA, ∀ m ∈ (s.mmu a).inflight, m.xs = false) := by decide

/-- PE 0 and PE 1 hold `e1`, and opA of PE 0 is pending; PE 1 acts on it. -/
def stInvalidate : State := { st7 [e1] [e1, e2] [] with events := [.invalidate (.pe 1) 0 opA] }

/-- Nothing that opA names is left; it completes. -/
def stComplete : State := { st7 [e8] [e2] [] with events := [.complete 0 opA] }

theorem witness_InvalidateAndCompleteMoves :
    (stInvalidate.events = .invalidate (.pe 1) 0 opA :: [] ∧ opA ∈ (stInvalidate.pe 0).pending
        ∧ .pe 1 ∈ scope stInvalidate.cfg opA ∧ stInvalidate.hasAgent (.pe 1))
      ∧ (stComplete.events = .complete 0 opA :: [] ∧ 0 < stComplete.pes.length ∧ (stComplete.pe 0).pending.Nodup
        ∧ ∀ a ∈ scope stComplete.cfg opA, NothingLeft stComplete opA a) :=
  ⟨⟨rfl, by decide, by decide, show 1 < 2 by decide⟩, rfl, by decide, by decide,
    (canComplete_iff stComplete opA).mp (by decide)⟩

theorem witness_OnlyCompletionEndsAnOperation :
    ∃ t, step stComplete = .next t ∧ opA ∈ (stComplete.pe 0).pending ∧ opA ∉ (t.pe 0).pending :=
  ⟨_, rfl, by decide, by decide⟩

theorem witness_OnlyPrivilegedInstructionsStartOperations :
    ∃ t op, step stTurn = .next t ∧ op ∉ (stTurn.pe 0).pending ∧ op ∈ (t.pe 0).pending :=
  ⟨_, (stTurn.tlbiOp .nonSecure .excludeXS 5), rfl, by decide, by decide⟩

/-- An entry goes by an operation, one goes by a drop, one comes by a fill. -/
theorem witness_TlbsChangeOnlyByTheirMoves :
    (∃ t, step stInvalidate = .next t ∧ e1 ∈ (stInvalidate.mmu (.pe 1)).tlb ∧ e1 ∉ (t.mmu (.pe 1)).tlb)
      ∧ (let s := { st7 [e1] [] [] with events := [.drop (.pe 0) e1] }
         ∃ t, step s = .next t ∧ e1 ∈ (s.mmu (.pe 0)).tlb ∧ e1 ∉ (t.mmu (.pe 0)).tlb)
      ∧ (let s := { st cfg0 (regs .el1) with events := [.fill (.smmu 0) e1] }
         ∃ t, step s = .next t ∧ e1 ∉ (s.mmu (.smmu 0)).tlb ∧ e1 ∈ (t.mmu (.smmu 0)).tlb) :=
  ⟨⟨_, rfl, by decide, by decide⟩, ⟨_, rfl, by decide, by decide⟩, ⟨_, rfl, by decide, by decide⟩⟩

theorem witness_ConfigAndTextNeverChange : ∃ t, step stTurn = .next t ∧ t ≠ stTurn := ⟨_, rfl, by decide⟩

/-- By a turn, by a return from an exception, by software. -/
theorem witness_RegistersChangeOnlyOnOwnMoves :
    (∃ t, step stTurn = .next t ∧ (t.pe 0).regs ≠ (stTurn.pe 0).regs)
      ∧ (let s := { st cfgX (regs .el2) with events := [.exceptionReturn 0] }
         ∃ t, step s = .next t ∧ (t.pe 0).regs ≠ (s.pe 0).regs)
      ∧ (let s := { st cfgX (regs .el2) with events := [.software 1 (regs .el2)] }
         ∃ t, step s = .next t ∧ (t.pe 1).regs ≠ (s.pe 1).regs) :=
  ⟨⟨_, rfl, by decide⟩, ⟨_, rfl, by decide⟩, ⟨_, rfl, by decide⟩⟩

theorem witness_CompletionPointWaitsForCompletion :
    let s := stW { cfgX with completionPoint := [0x1000] } (regs .el1) 0xD50883A0
    ∃ t, step s = .next t ∧ TurnOf s 0 ∧ (s.pe 0).regs.pc ∈ s.cfg.completionPoint ∧ (t.pe 0).regs ≠ (s.pe 0).regs :=
  ⟨_, rfl, .inl ⟨rfl, rfl⟩, by decide, by decide⟩

/-- The invariant of a state of two PEs with legal registers and at most the operation opA pending, on PE 0. -/
theorem inv_of_two (s : State) (p0 p1 : Pe) (hp : s.pes = [p0, p1]) (hc : s.cfg.wf = true) (hm : s.mem = [])
    (hn : s.cfg.pes.length = 2) (hs : s.smmus.length = s.cfg.smmuCount) (hcur : s.cur = 0)
    (h0 : p0.regs.legal s.cfg = true) (h1 : p1.regs.legal s.cfg = true) (ht0 : TlbWf s.cfg p0.mmu.tlb)
    (ht1 : TlbWf s.cfg p1.mmu.tlb) (hst : ∀ m ∈ s.smmus, m.tlb = []) (ho : p0.pending = [] ∨ p0.pending = [opA])
    (ho1 : p1.pending = []) : s.Inv := by
  have hpe : ∀ p, s.pe p = p0 ∧ p = 0 ∨ s.pe p = p1 ∨ (s.pe p).pending = [] := by
    intro p
    match p with
    | 0 => exact .inl ⟨by simp [State.pe, hp], rfl⟩
    | 1 => exact .inr (.inl (by simp [State.pe, hp]))
    | n + 2 => exact .inr (.inr (by simp [State.pe, hp]; rfl))
  have hpend : ∀ p, (p = 0 ∧ (s.pe p).pending = [opA]) ∨ (s.pe p).pending = [] := by
    intro p
    rcases hpe p with ⟨h, h'⟩ | h | h
    · rcases ho with h2 | h2
      · exact .inr (h ▸ h2)
      · exact .inl ⟨h', h ▸ h2⟩
    · exact .inr (h ▸ ho1)
    · exact .inr h
  refine ⟨hc, hm ▸ rfl, by simp [hp, hn], hs, by simp [hp, hcur], ?_, ?_, fun m h => by simp [hst m h, TlbWf.nil], ?_, ?_⟩
  · simp [hp, h0, h1]
  · simp [hp, ht0, ht1]
  · intro p op hop
    rcases hpend p with ⟨rfl, h⟩ | h
    · rw [h, List.mem_singleton] at hop
      exact hop ▸ ⟨rfl, .inl rfl, nofun⟩
    · rw [h] at hop; cases hop
  · intro p
    rcases hpend p with ⟨_, h⟩ | h <;> simp [h]

/-- EL1 of `cfgX` under `HCR_EL2.TTLB`. -/
def stTrap : State := st cfgX { regs .el1 with hcr := ⟨false, false, true, false⟩ }

theorem witness_ReturnUndoesEntry :
    stTrap.Inv ∧ ∃ t, exec (.tlbiVale1is 3) stTrap = .next t
      ∧ Entered stTrap t .el2 (.systemAccessTrap .el1 .el2 0x18 (.tlbiVale1is 3)) :=
  ⟨inv_of_two _ _ _ rfl (by decide) rfl rfl rfl rfl (by decide) (by decide) (TlbWf.nil _) (TlbWf.nil _) (by decide)
    (.inl rfl) rfl, _, rfl, (trapToEl2_entered stTrap (.tlbiVale1is 3) (by decide)).1⟩

theorem stInvalidate_inv : stInvalidate.Inv :=
  inv_of_two _ _ _ rfl (by decide) rfl rfl rfl rfl (by decide) (by decide) ⟨by decide, by decide⟩ ⟨by decide, by decide⟩
    (by decide) (.inr rfl) rfl

theorem witness_PendingOperationCanComplete :
    stInvalidate.Inv ∧ opA ∈ (stInvalidate.pe 0).pending
      ∧ ∀ a ∈ scope stInvalidate.cfg opA, ∀ m ∈ (stInvalidate.mmu a).inflight, waitsFor stInvalidate.cfg opA a m = false :=
  ⟨stInvalidate_inv, by decide, by decide⟩

theorem witness_InvariantHoldsAtReset : Config.atReset.wf = true ∧ cfg0.wf = true := by decide

theorem witness_StepKeepsInvariant : stInvalidate.Inv ∧ ∃ t, step stInvalidate = .next t := ⟨stInvalidate_inv, _, rfl⟩

/-- With EL3, with EL2 and no EL3, with neither. -/
theorem witness_ResetLeavesNothingPending : 0 < cfgX.pes.length ∧ cfgX.haveEL3 = true
    ∧ ({ cfgX with haveEL3 := false } : Config).haveEL2 = true ∧ cfg0.haveEL3 = false ∧ cfg0.haveEL2 = false := by decide

/-- Eight bytes up to the top of memory, and none. -/
theorem witness_MemReadAfterMemWrite :
    Memory.wf [(3, 7)] = true ∧ (∃ m, Memory.memWrite [(3, 7)] 0xFFFFFFFFFFFFFFF8 8 0x0102030405060708 = some m)
      ∧ (∃ m, Memory.memWrite [(3, 7)] 3 0 0 = some m) := ⟨by decide, ⟨_, rfl⟩, ⟨_, rfl⟩⟩

theorem witness_CanonicalMemoriesAreEqual :
    let m : Memory := [(3, 7), (4, 0)]
    Memory.wf m = true ∧ ∀ a, Memory.read m a = Memory.read m a := ⟨by decide, fun _ => rfl⟩

/-- PE 1 holds `e1` and `e2` and has an access in flight that uses `e1`; this move comes next. -/
def stMove (ev : Event) : State := { st7 [] [e1, e2] [⟨true, [e1]⟩] with events := [ev] }

/-- A start of an access whose entries are held, beside an equal one; and a finish. -/
theorem witness_AccessesChangeOnlyByTheirMoves :
    (∃ t, step (stMove (.start (.pe 1) ⟨true, [e1]⟩)) = .next t
        ∧ ((stMove (.start (.pe 1) ⟨true, [e1]⟩)).mmu (.pe 1)).inflight.count ⟨true, [e1]⟩
          < (t.mmu (.pe 1)).inflight.count ⟨true, [e1]⟩)
      ∧ (∃ t, step (stMove (.finish (.pe 1) ⟨true, [e1]⟩)) = .next t
        ∧ (t.mmu (.pe 1)).inflight.count ⟨true, [e1]⟩
          < ((stMove (.finish (.pe 1) ⟨true, [e1]⟩)).mmu (.pe 1)).inflight.count ⟨true, [e1]⟩) :=
  ⟨⟨_, rfl, by decide⟩, ⟨_, rfl, by decide⟩⟩

/-- An access that uses an entry its agent's TLB does not hold is not started. -/
theorem test_start_needs_entries : ∃ t, step (stMove (.start (.pe 1) ⟨false, [e8]⟩)) = .next t
    ∧ (t.mmu (.pe 1)).inflight = [⟨true, [e1]⟩] := ⟨_, rfl, by decide⟩

theorem witness_AgentMovesDoWhatTheyName :
    (stMove (.fill (.pe 1) e8)).hasAgent (.pe 1) ∧ (stMove (.fill (.pe 1) e8)).events = [.fill (.pe 1) e8]
      ∧ e8.wf (stMove (.fill (.pe 1) e8)).cfg = true
      ∧ ((stMove (.drop (.pe 1) e2)).mmu (.pe 1)).tlb.Nodup
      ∧ (∀ e ∈ (⟨false, [e1, e2]⟩ : Access).used, e ∈ ((stMove (.start (.pe 1) ⟨false, [e1, e2]⟩)).mmu (.pe 1)).tlb)
      ∧ (stMove (.finish (.pe 1) ⟨true, [e1]⟩)).events = [.finish (.pe 1) ⟨true, [e1]⟩] :=
  ⟨show 1 < 2 by decide, rfl, by decide, by decide, by decide, rfl⟩

end Sys2Proof.Tests
end

/-! PROOFS. What `MemRead` gives after `MemWrite`, and that the canonical form is determined by what
reads of it give (00_scope.md R10, 20_memory.md R38; the form of a memory is the model's choice, log 10). -/

namespace Sys2Proof.Machine.Memory

/-! ### The bytes of a number, least significant first -/

@[simp] theorem length_leBytes (n v : Nat) : (leBytes n v).length = n := by
  induction n generalizing v with
  | zero => rfl
  | succ n ih => rw [leBytes, List.length_cons, ih]

/-- The low byte and the quotient make up the number again: `Nat.mod_mul`, one byte at a time. -/
@[simp] theorem leValue_leBytes (n v : Nat) : leValue (leBytes n v) = v % 256 ^ n := by
  induction n generalizing v with
  | zero => rw [leBytes, leValue, Nat.pow_zero, Nat.mod_one]
  | succ n ih =>
    calc leValue (leBytes (n + 1) v)
      _ = v % 256 + 256 * (v / 256 % 256 ^ n) := by rw [leBytes, leValue, ih, BitVec.toNat_ofNat]
      _ = v % 256 ^ (n + 1) := by rw [Nat.pow_succ' (m := 256), Nat.mod_mul]

/-! ### Writing -/

theorem memWrite_eq_some_iff {m m' : Memory} {addr : DWord} {n v : Nat} :
    memWrite m addr n v = some m' ↔ addr.toNat + n ≤ 2 ^ 64 ∧ m.writeBytes addr.toNat (leBytes n v) = m' := by
  rw [memWrite, Option.ite_none_right_eq_some, Option.some_inj]

theorem read_writeBytes_above (m : Memory) (bs : List Byte) {a a' : Nat} (h : a + bs.length ≤ a') :
    (m.writeBytes a bs).read a' = m.read a' := by
  induction bs generalizing m a with
  | nil => rfl
  | cons b bs ih =>
    rw [List.length_cons] at h
    rw [writeBytes, ih _ (by omega), read_write_other m b (by omega)]

/-- The bytes outside the range a `MemWrite` names keep their values. -/
theorem read_memWrite_outside {m m' : Memory} {addr : DWord} {n v a : Nat} (hw : memWrite m addr n v = some m')
    (ha : a < addr.toNat ∨ addr.toNat + n ≤ a) : m'.read a = m.read a := by
  obtain ⟨-, rfl⟩ := memWrite_eq_some_iff.mp hw
  cases ha with
  | inl hbelow => exact read_writeBytes_below m _ hbelow
  | inr habove => exact read_writeBytes_above m _ (by rwa [length_leBytes])

/-- The bytes a `MemWrite` wrote, read as one number, are the value cut to its width. -/
theorem memRead_memWrite {m m' : Memory} {addr : DWord} {n v : Nat} (hw : memWrite m addr n v = some m') :
    memRead m' addr n = some (v % 256 ^ n) := by
  obtain ⟨hle, rfl⟩ := memWrite_eq_some_iff.mp hw
  have hread := readBytes_writeBytes m addr.toNat (leBytes n v)
  rw [length_leBytes] at hread
  rw [memRead, if_pos hle, hread, Option.map_some, leValue_leBytes]

/-! ### The canonical form -/

theorem wfFrom_cons {lo a : Nat} {b : Byte} {rest : Memory} :
    wfFrom lo ((a, b) :: rest) = true ↔ lo ≤ a ∧ a < 2 ^ 64 ∧ wfFrom (a + 1) rest = true := by
  simp only [wfFrom, Bool.and_eq_true, decide_eq_true_eq, and_assoc]

@[simp] theorem read_cons_same (a : Nat) (b : Byte) (rest : Memory) : read ((a, b) :: rest) a = some b :=
  if_pos rfl

theorem read_cons_other {a a' : Nat} (b : Byte) (rest : Memory) (hne : a ≠ a') :
    read ((a', b) :: rest) a = read rest a :=
  if_neg hne

/-- An address that has a value is not below the canonical form's lower bound. -/
theorem le_of_read_eq_some {lo a : Nat} {m : Memory} {b : Byte} (h : wfFrom lo m = true) (hr : m.read a = some b) :
    lo ≤ a := by
  apply Nat.le_of_not_lt
  intro hlt
  rw [read_below h hlt] at hr
  cases hr

/-- The first cell's address is the lowest address that has a value. -/
theorem head_le_of_read_eq_some {lo a a' : Nat} {b b' : Byte} {rest : Memory}
    (h : wfFrom lo ((a', b') :: rest) = true) (hr : read ((a', b') :: rest) a = some b) : a' ≤ a := by
  obtain ⟨-, hlt, hrest⟩ := wfFrom_cons.mp h
  exact le_of_read_eq_some (wfFrom_cons.mpr ⟨Nat.le_refl a', hlt, hrest⟩) hr

/-- Both first cells hold the lowest address with a value, so they agree; and what reads alike after them is equal. -/
theorem eq_of_read_eq {lo lo' : Nat} {m m' : Memory} (h : wfFrom lo m = true) (h' : wfFrom lo' m' = true)
    (hread : ∀ a, m.read a = m'.read a) : m = m' := by
  induction m generalizing lo lo' m' with
  | nil =>
    cases m' with
    | nil => rfl
    | cons c' rest' =>
      obtain ⟨a', b'⟩ := c'
      have hhead := hread a'
      rw [read_cons_same] at hhead
      cases hhead
  | cons c rest ih =>
    obtain ⟨a, b⟩ := c
    have hhead := hread a
    rw [read_cons_same] at hhead
    cases m' with
    | nil => cases hhead
    | cons c' rest' =>
      obtain ⟨a', b'⟩ := c'
      have hhead' := hread a'
      rw [read_cons_same] at hhead'
      obtain rfl : a = a' :=
        Nat.le_antisymm (head_le_of_read_eq_some h hhead') (head_le_of_read_eq_some h' hhead.symm)
      obtain rfl : b = b' := by rwa [read_cons_same, Option.some_inj] at hhead
      obtain ⟨-, -, hrest⟩ := wfFrom_cons.mp h
      obtain ⟨-, -, hrest'⟩ := wfFrom_cons.mp h'
      have htail : ∀ x, read rest x = read rest' x := by
        intro x
        by_cases hx : x = a
        · have hlt : x < a + 1 := by omega
          rw [read_below hrest hlt, read_below hrest' hlt]
        · rw [← read_cons_other b rest hx, ← read_cons_other b rest' hx, hread]
      rw [ih hrest hrest' htail]

/-! ### The obligations -/

/-- Settles O47: the value comes back by the bytes of a number, the rest by the frame of a run of byte writes. -/
theorem memReadAfterMemWrite : Obligations.MemReadAfterMemWrite := by
  intro m m' addr n v hwf hw
  exact ⟨memRead_memWrite hw, fun a ha => read_memWrite_outside hw ha, wf_memWrite hwf hw⟩

/-- Settles O48, by induction on the list of cells under any lower bounds. -/
theorem canonicalMemoriesAreEqual : Obligations.CanonicalMemoriesAreEqual := by
  intro m m' hwf hwf' hread
  exact eq_of_read_eq hwf hwf' hread

end Sys2Proof.Machine.Memory

/-! PROOFS. What the two instructions do: their whole effect where they run, when they stop, what they leave unchanged,
and where `HCRX_EL2.FnXS` is read (40_tlbi_vale1is.md R81 to R83, 10_state.md R22, R26). -/

namespace Sys2Proof.Machine

/-! ### The target of an operation, by level -/

/-- At EL1 the target is EL1&0, whatever `HCR_EL2.{E2H, TGE}` hold (D13, log 20). -/
theorem TargetIs.at_el1 {cfg : Config} {r : PeRegs} {op : TlbiOp} (h : TargetIs cfg r op) (hel : r.pstate.el = .el1) :
    op.regime = .el10 ∧ VmidIs cfg r op.vmid :=
  h.2 fun hel20 => hel20.1 hel

/-- Above EL1 the target is chosen by `HCR_EL2.{E2H, TGE}` where EL2 is enabled. -/
theorem TargetIs.above_el1 {cfg : Config} {r : PeRegs} {op : TlbiOp} (h : TargetIs cfg r op)
    (hel : r.pstate.el ≠ .el1) :
    ((EL2On cfg r ∧ r.hcr.e2h = true ∧ r.hcr.tge = true) → op.regime = .el20 ∧ op.vmid = none)
      ∧ (¬(EL2On cfg r ∧ r.hcr.e2h = true ∧ r.hcr.tge = true) → op.regime = .el10 ∧ VmidIs cfg r op.vmid) :=
  ⟨fun hon => h.1 ⟨hel, hon⟩, fun hoff => h.2 fun hel20 => hoff hel20.2⟩

/-! ### The whole effect of an instruction that runs -/

/-- Above EL0 and with a Security state, `issueTlbi` makes pending the one record that the PE's registers give. -/
theorem issueTlbi_runs (s : State) (attr : XsAttr) (t : Nat) (hcur : s.cur < s.pes.length)
    (hel : s.regs.pstate.el ≠ .el0) (hsec : ¬NoSecurityState s.cfg s.regs) :
    ∃ op s', s.issueTlbi attr t = .next s' ∧ Issued s s' op ∧ RecordOf s s.cur t op ∧ TargetIs s.cfg s.regs op
      ∧ op.attr = attr := by
  obtain ⟨sec, hsome, hnext⟩ := issueTlbi_next s attr t hsec
  exact ⟨s.tlbiOp sec attr t, _, hnext, addOp_issued s _ hcur, tlbiOp_recordOf s attr t hsome,
    tlbiOp_targetIs s sec attr t hel, rfl⟩

theorem ne_el0_of_el1 {el : EL} (h : el = .el1) : el ≠ .el0 := by
  rintro rfl; cases h

theorem ne_el0_of_high {el : EL} (h : el = .el2 ∨ el = .el3) : el ≠ .el0 := by
  rintro rfl; cases h <;> contradiction

theorem ne_el1_of_high {el : EL} (h : el = .el2 ∨ el = .el3) : el ≠ .el1 := by
  rintro rfl; cases h <;> contradiction

/-- Settles O8: the EL1 arm issues one record, whose target at EL1 is EL1&0. -/
theorem vale1isRunsAtEl1 : Obligations.Vale1isRunsAtEl1 := by
  intro t s _ hcur hel htrap hsec
  obtain ⟨op, s', hnext, hissued, hrec, htarget, hattr⟩ :=
    issueTlbi_runs s (if fnxsOverride s.cfg s.regs then .excludeXS else .allAttr) t hcur (ne_el0_of_el1 hel) hsec
  obtain ⟨hregime, hvmid⟩ := htarget.at_el1 hel
  refine ⟨op, s', (exec_vale1is_el1 t hel htrap).trans hnext, hissued, hrec, hregime, hvmid, ?_⟩
  rw [hattr, ← fnxsOverride_iff]
  cases fnxsOverride s.cfg s.regs <;> simp

/-- Settles O9: the EL2 and EL3 arms issue one `AllAttr` record, with the target of a level above EL1. -/
theorem vale1isRunsAtEl2AndEl3 : Obligations.Vale1isRunsAtEl2AndEl3 := by
  intro t s _ hcur hel hsec
  obtain ⟨op, s', hnext, hissued, hrec, htarget, hattr⟩ := issueTlbi_runs s .allAttr t hcur (ne_el0_of_high hel) hsec
  exact ⟨op, s', (exec_vale1is_high t hel).trans hnext, hissued, hrec, hattr, htarget.above_el1 (ne_el1_of_high hel)⟩

/-- Settles O10: the EL1 arm of the nXS variant issues one `ExcludeXS` record, whose target at EL1 is EL1&0. -/
theorem vale1isnxsRunsAtEl1 : Obligations.Vale1isnxsRunsAtEl1 := by
  intro t s _ hcur hxs hel htrap hsec
  obtain ⟨op, s', hnext, hissued, hrec, htarget, hattr⟩ := issueTlbi_runs s .excludeXS t hcur (ne_el0_of_el1 hel) hsec
  obtain ⟨hregime, hvmid⟩ := htarget.at_el1 hel
  exact ⟨op, s', (exec_nxs_el1 t hxs hel htrap).trans hnext, hissued, hrec, hregime, hvmid, hattr⟩

/-- Settles O11: the EL2 and EL3 arms of the nXS variant issue one `ExcludeXS` record, with the target of a level above
EL1. -/
theorem vale1isnxsRunsAtEl2AndEl3 : Obligations.Vale1isnxsRunsAtEl2AndEl3 := by
  intro t s _ hcur hxs hel hsec
  obtain ⟨op, s', hnext, hissued, hrec, htarget, hattr⟩ :=
    issueTlbi_runs s .excludeXS t hcur (ne_el0_of_high hel) hsec
  exact ⟨op, s', (exec_nxs_high t hxs hel).trans hnext, hissued, hrec, hattr, htarget.above_el1 (ne_el1_of_high hel)⟩

/-! ### Where an instruction stops -/

theorem exec_ne_fault (i : Instr) (s : State) (f : Fault) : exec i s ≠ .fault f := by
  intro h
  have ho := exec_outcome i s
  rw [h] at ho
  cases ho

theorem exec_refused {i : Instr} {s : State} {r : Refusal} (h : exec i s = .refused r) :
    r = .reservedSecurityState ∧ NoSecurityState s.cfg s.regs ∧ s.regs.pstate.el ≠ .el0 := by
  have ho := exec_outcome i s
  rw [h] at ho
  cases ho with
  | noSecurityState hno hel => exact ⟨rfl, hno, hel⟩

theorem issueTlbi_refused {s : State} (attr : XsAttr) (t : Nat) (h : NoSecurityState s.cfg s.regs) :
    s.issueTlbi attr t = .refused .reservedSecurityState := by
  rw [State.issueTlbi, (securityState_eq_none_iff _ _).mpr h]

/-- Settles O17: every stop is the refusal of `issueTlbi`, which both instructions reach above EL0 where untrapped. -/
theorem execStopsOnlyWithoutSecurityState : Obligations.ExecStopsOnlyWithoutSecurityState := by
  intro s
  refine ⟨fun i f => exec_ne_fault i s f, fun i r h => exec_refused h, fun hno t => ⟨?_, ?_⟩⟩
  · rintro (hel | hel | ⟨hel, htrap⟩)
    · exact (exec_vale1is_high t (.inl hel)).trans (issueTlbi_refused _ t hno)
    · exact (exec_vale1is_high t (.inr hel)).trans (issueTlbi_refused _ t hno)
    · exact (exec_vale1is_el1 t hel htrap).trans (issueTlbi_refused _ t hno)
  · rintro hxs (hel | hel | ⟨hel, htrap⟩)
    · exact (exec_nxs_high t hxs (.inl hel)).trans (issueTlbi_refused _ t hno)
    · exact (exec_nxs_high t hxs (.inr hel)).trans (issueTlbi_refused _ t hno)
    · exact (exec_nxs_el1 t hxs hel htrap).trans (issueTlbi_refused _ t hno)

/-! ### The frame of an instruction -/

/-- An instruction that goes on has made one record pending or has entered an exception. -/
theorem exec_issued_or_entered {i : Instr} {s t : State} (hcur : s.cur < s.pes.length) (h : exec i s = .next t) :
    (∃ op, Issued s t op) ∨ (∃ l why, Entered s t l why) := by
  have ho := exec_outcome i s
  rw [h] at ho
  cases ho with
  | issue sec attr _ _ _ => exact .inl ⟨_, addOp_issued s _ hcur⟩
  | undefined => exact .inr ⟨_, _, (raiseUndefined_entered s hcur).1⟩
  | trap _ _ => exact .inr ⟨_, _, (trapToEl2_entered s i hcur).1⟩

theorem Issued.frame {s t : State} {op : TlbiOp} (h : Issued s t op) :
    SameElsewhere s t ∧ SameControls (s.pe s.cur).regs (t.pe s.cur).regs := by
  obtain ⟨helse, hcontrols, -⟩ := h
  exact ⟨helse, hcontrols⟩

theorem Entered.frame {s t : State} {l : ExcLevel} {why : Raised} (h : Entered s t l why) :
    SameElsewhere s t ∧ SameControls (s.pe s.cur).regs (t.pe s.cur).regs := by
  obtain ⟨helse, hcontrols, -⟩ := h
  exact ⟨helse, hcontrols⟩

/-- Settles O18: both ways to go on keep everything that is not the PE's own pc, PSTATE, banks, records and outcome. -/
theorem instructionsChangeNothingElse : Obligations.InstructionsChangeNothingElse := by
  intro i s t hcur h
  have hways := exec_issued_or_entered hcur h
  have hframe : SameElsewhere s t ∧ SameControls s.regs (t.pe s.cur).regs := by
    rcases hways with ⟨op, hissued⟩ | ⟨l, why, hentered⟩
    · exact hissued.frame
    · exact hentered.frame
  exact ⟨hframe.1, hframe.2, hways⟩

/-! ### `HCRX_EL2.FnXS` -/

/-- The nXS variant has one more condition on the fine-grained trap, so it is trapped only where `TLBI VALE1IS` is. -/
theorem NxsTraps.plainTraps {cfg : Config} {r : PeRegs} (h : NxsTraps cfg r) : PlainTraps cfg r := by
  rcases h with hcoarse | ⟨hfine, -⟩
  · exact .inl hcoarse
  · exact .inr hfine

/-- Settles O20: under the override both EL1 arms issue the `ExcludeXS` record. -/
theorem fnxsOverrideActsAsNxs : Obligations.FnxsOverrideActsAsNxs := by
  intro t s hel htrap hxs hhcx hon hfnxs
  have hover : fnxsOverride s.cfg s.regs = true := (fnxsOverride_iff _ _).mpr ⟨hxs, hhcx, hon, hfnxs⟩
  calc exec (.tlbiVale1is t) s
    _ = s.issueTlbi .excludeXS t := by rw [exec_vale1is_el1 t hel htrap, hover, if_pos rfl]
    _ = exec (.tlbiVale1isnxs t) s := (exec_nxs_el1 t hxs hel fun hn => htrap hn.plainTraps).symm

/-- The PE with `HCRX_EL2.FnXS` set to `b`. -/
def Pe.withFnxs (pe : Pe) (b : Bool) : Pe :=
  { pe with regs := { pe.regs with hcrx := { pe.regs.hcrx with fnxs := b } } }

/-- The machine with `HCRX_EL2.FnXS` of PE `p` set to `b`. -/
def State.withFnxs (s : State) (p : Nat) (b : Bool) : State := s.setPe p ((s.pe p).withFnxs b)

theorem setPe_setPe (s : State) (p : Nat) (v w : Pe) : (s.setPe p v).setPe p w = s.setPe p w := by
  rw [State.setPe, State.setPe, State.setPe, List.set_set]

theorem pe_withFnxs {s : State} {p : Nat} (b : Bool) (hp : p < s.pes.length) :
    (s.withFnxs p b).pe p = (s.pe p).withFnxs b :=
  pe_setPe_self s p _ hp

/-- `FnXS` and an update of the same PE that does not touch it can be made in either order. -/
theorem setPe_withFnxs {s : State} {p : Nat} (b : Bool) (v : Pe) (hp : p < s.pes.length) :
    (s.withFnxs p b).setPe p (v.withFnxs b) = (s.setPe p v).withFnxs p b := by
  rw [State.withFnxs, State.withFnxs, setPe_setPe, setPe_setPe, pe_setPe_self s p v hp]

theorem takeException_withFnxs (pe : Pe) (b : Bool) (l : ExcLevel) (e : BitVec 32) (w : Raised) :
    (pe.withFnxs b).takeException l e w = (pe.takeException l e w).withFnxs b := by
  cases l <;> rfl

theorem allEel2_setPe {s : State} {p : Nat} {v : Pe} (hv : v.regs.scr.eel2 = (s.pe p).regs.scr.eel2) :
    (s.setPe p v).allEel2 = s.allEel2 := by
  calc (s.setPe p v).allEel2
    _ = s.allEel2.set p v.regs.scr.eel2 := by simp only [State.allEel2, setPe_pes, List.map_set]
    _ = (s.setPe p (s.pe p)).allEel2 := by rw [hv]; simp only [State.allEel2, setPe_pes, List.map_set]
    _ = s.allEel2 := by rw [setPe_pe]

/-- The nXS variant at any level, and `TLBI VALE1IS` at a level other than EL1, choose without reading `FnXS`. -/
theorem action_withFnxs {i : Instr} {pe : Pe} (cfg : Config) (b : Bool)
    (h : (∃ t, i = .tlbiVale1isnxs t) ∨ pe.regs.pstate.el ≠ .el1) :
    action i cfg (pe.withFnxs b).regs = action i cfg pe.regs := by
  rcases h with ⟨t, rfl⟩ | hel
  · rfl
  · cases i with
    | tlbiVale1isnxs t => rfl
    | tlbiVale1is t =>
      have hsame : (pe.withFnxs b).regs.pstate = pe.regs.pstate := rfl
      unfold action
      rw [hsame]
      cases hlevel : pe.regs.pstate.el with
      | el1 => exact absurd hlevel hel
      | el0 => rfl
      | el2 => rfl
      | el3 => rfl

section
variable {s : State} (b : Bool) (hcur : s.cur < s.pes.length)
include hcur

theorem regs_withFnxs : (s.withFnxs s.cur b).regs = ((s.pe s.cur).withFnxs b).regs :=
  congrArg Pe.regs (pe_withFnxs b hcur)

/-- An update `f` of the executing PE that commutes with setting `FnXS` does so on the machine. -/
theorem setPe_update_withFnxs (f : Pe → Pe) (hf : f ((s.pe s.cur).withFnxs b) = (f (s.pe s.cur)).withFnxs b) :
    (s.withFnxs s.cur b).setPe s.cur (f ((s.withFnxs s.cur b).pe s.cur))
      = (s.setPe s.cur (f (s.pe s.cur))).withFnxs s.cur b := by
  rw [pe_withFnxs b hcur, hf, setPe_withFnxs b _ hcur]

theorem raiseUndefined_withFnxs : (s.withFnxs s.cur b).raiseUndefined = s.raiseUndefined.withFnxs s.cur b :=
  congrArg (fun u : State => { u with freeCount := s.freeCount + 1 })
    (setPe_update_withFnxs b hcur
      (fun pe => pe.takeException (undefinedTarget s.cfg pe.regs) (undefinedSyndrome (Config.undefinedIL s.freeCount))
        (.undefined pe.regs.pstate.el))
      (takeException_withFnxs _ b _ _ _))

theorem trapToEl2_withFnxs (i : Instr) : (s.withFnxs s.cur b).trapToEl2 i = (s.trapToEl2 i).withFnxs s.cur b :=
  setPe_update_withFnxs b hcur
    (fun pe => pe.takeException .el2 (trapSyndrome i) (.systemAccessTrap pe.regs.pstate.el .el2 0x18 i))
    (takeException_withFnxs _ b _ _ _)

theorem addOp_withFnxs (op : TlbiOp) : (s.withFnxs s.cur b).addOp op = (s.addOp op).withFnxs s.cur b :=
  setPe_update_withFnxs b hcur (fun pe => Pe.advance { pe with pending := insertNew op pe.pending }) rfl

/-- The record reads no `FnXS`: of the other PEs it has `SCR_EL3.EEL2` only. -/
theorem tlbiOp_withFnxs (sec : SecurityState) (attr : XsAttr) (t : Nat) :
    (s.withFnxs s.cur b).tlbiOp sec attr t = s.tlbiOp sec attr t := by
  have heel2 : (s.withFnxs s.cur b).allEel2 = s.allEel2 := allEel2_setPe rfl
  unfold State.tlbiOp
  rw [heel2, regs_withFnxs b hcur]
  rfl

theorem securityState_withFnxs :
    securityState s.cfg (s.withFnxs s.cur b).regs = securityState s.cfg s.regs := by
  rw [regs_withFnxs b hcur]
  rfl

end

/-- An outcome with `FnXS` of PE `p` set in its next state. -/
def outcomeWithFnxs (p : Nat) (b : Bool) :
    Host.Outcome State Fault Refusal → Host.Outcome State Fault Refusal
  | .next u => .next (u.withFnxs p b)
  | .fault f => .fault f
  | .refused r => .refused r

/-- Carrying out a choice keeps `FnXS` as set and does not read it. -/
theorem perform_withFnxs {s : State} (b : Bool) (hcur : s.cur < s.pes.length) (i : Instr) (a : Action) :
    (s.withFnxs s.cur b).perform i a = outcomeWithFnxs s.cur b (s.perform i a) := by
  cases a with
  | undefined => exact congrArg Host.Outcome.next (raiseUndefined_withFnxs b hcur)
  | trap => exact congrArg Host.Outcome.next (trapToEl2_withFnxs b hcur i)
  | issue attr =>
    have hsec : securityState (s.withFnxs s.cur b).cfg (s.withFnxs s.cur b).regs = securityState s.cfg s.regs :=
      securityState_withFnxs b hcur
    simp only [State.perform, State.issueTlbi, hsec]
    cases securityState s.cfg s.regs with
    | none => rfl
    | some sec =>
      simp only [tlbiOp_withFnxs b hcur, addOp_withFnxs b hcur, outcomeWithFnxs]

theorem exec_withFnxs {i : Instr} {s : State} (b : Bool) (hcur : s.cur < s.pes.length)
    (h : (∃ t, i = .tlbiVale1isnxs t) ∨ s.regs.pstate.el ≠ .el1) :
    exec i (s.withFnxs s.cur b) = outcomeWithFnxs s.cur b (exec i s) := by
  have hchoice : action i (s.withFnxs s.cur b).cfg (s.withFnxs s.cur b).regs = action i s.cfg s.regs := by
    rw [regs_withFnxs b hcur]
    exact action_withFnxs (pe := s.pe s.cur) s.cfg b h
  rw [exec_eq_perform, exec_eq_perform, hchoice, perform_withFnxs b hcur]

/-- Settles O21: the choice does not read `FnXS`, and carrying it out leaves `FnXS` as it is set. -/
theorem fnxsIsReadByVale1isAtEl1Only : Obligations.FnxsIsReadByVale1isAtEl1Only := by
  intro i s b hcur h flip
  have hflip : exec i (flip s) = outcomeWithFnxs s.cur b (exec i s) := exec_withFnxs b hcur h
  refine ⟨fun u hu => ?_, fun r hr => ?_⟩
  · rw [hflip, hu]; rfl
  · rw [hflip, hr]; rfl

end Sys2Proof.Machine

/-! PROOFS. What a step can change: the configuration and memory never, and of the agents only what the move taken names
(10_state.md R29 to R34, 20_memory.md R47, R48, 60_exceptions.md R92, R93; the moves are the model's form, log 26). -/

namespace Sys2Proof.Machine

/-! ### Every next state of a step -/

/-- A step that answers a next state: nothing but the use of a move, an instruction of the PE whose turn it is, or a move
of the environment. -/
inductive StepNext (s : State) : State → Prop where
  /-- The PE waits, or does not exist. -/
  | idle (cur : Nat) (rest : List Event) (hcur : cur < s.pes.length ∨ cur = s.cur) :
      StepNext s { s with cur := cur, events := rest }
  | exec (p : Nat) (rest : List Event) (i : Instr) (t : State) (hturn : TurnOf s p) (hp : p < s.pes.length ∨ p = s.cur)
      (hfetch : State.fetch { s with cur := p, events := rest } = .instr i)
      (hexec : exec i { s with cur := p, events := rest } = .next t) : StepNext s t
  | move (ev : Event) (rest : List Event) (hev : s.events = ev :: rest) :
      StepNext s (State.environment { s with events := rest } ev)

theorem stepNext_of_step {s t : State} (h : step s = .next t) : StepNext s t := by
  have ho := step_outcome s
  rw [h] at ho
  generalize hout : (Host.Outcome.next t : Host.Outcome State Fault Refusal) = out at ho
  cases ho with
  | turn p rest hturn hp hrest =>
    have hturnOut := turn_outcome { s with cur := p, events := rest }
    rw [← hout] at hturnOut
    generalize hout' : (Host.Outcome.next t : Host.Outcome State Fault Refusal) = out' at hturnOut
    cases hturnOut with
    | wait _ => cases hout'; exact .idle p rest hp
    | exec i hfetch => exact .exec p rest i t hturn hp hfetch hout'.symm
    | fault _ _ => cases hout'
    | refused _ _ => cases hout'
  | noPe p rest hev hp => cases hout; exact .idle s.cur rest (.inr rfl)
  | move ev rest hev hne => cases hout; exact .move ev rest hev

/-! ### The part of the machine an instruction replaces -/

/-- An instruction that goes on has replaced its own PE, TLB and accesses as they were, and used at most a free value. -/
theorem exec_eq_setPe {i : Instr} {s t : State} (h : exec i s = .next t) :
    ∃ v n, t = { s.setPe s.cur v with freeCount := n } ∧ v.mmu = (s.pe s.cur).mmu := by
  have ho := exec_outcome i s
  rw [h] at ho
  cases ho with
  | issue sec attr _ _ _ => exact ⟨_, _, rfl, rfl⟩
  | undefined => exact ⟨_, _, rfl, rfl⟩
  | trap _ _ => exact ⟨_, _, rfl, rfl⟩

/-- The configuration, memory, and numbers of agents of an instruction's next state. -/
theorem exec_sameCounts {i : Instr} {s t : State} (h : exec i s = .next t) :
    t.cfg = s.cfg ∧ t.mem = s.mem ∧ t.pes.length = s.pes.length ∧ t.smmus.length = s.smmus.length := by
  obtain ⟨v, n, rfl, -⟩ := exec_eq_setPe h
  exact ⟨rfl, rfl, by simp, rfl⟩

/-- An instruction leaves every other PE as it is (60_exceptions.md R93). -/
theorem exec_pe_ne {i : Instr} {s t : State} (h : exec i s = .next t) {q : Nat} (hq : q ≠ s.cur) : t.pe q = s.pe q := by
  obtain ⟨v, n, rfl, -⟩ := exec_eq_setPe h
  exact pe_setPe_ne s v hq

/-- A step keeps the configuration, memory and the numbers of agents. -/
theorem step_sameCounts {s t : State} (h : step s = .next t) :
    t.cfg = s.cfg ∧ t.mem = s.mem ∧ t.pes.length = s.pes.length ∧ t.smmus.length = s.smmus.length := by
  cases stepNext_of_step h with
  | idle cur rest _ => exact ⟨rfl, rfl, rfl, rfl⟩
  | exec p rest i t _ _ _ hexec => exact exec_sameCounts (s := { s with cur := p, events := rest }) hexec
  | move ev rest _ =>
    have hsame := environment_sameMachine { s with events := rest } ev
    exact ⟨hsame.cfg, hsame.mem, hsame.peCount, hsame.smmuCount⟩

/-- Settles O39, by the frames of an instruction and of a move of the environment. -/
theorem configAndTextNeverChange : Obligations.ConfigAndTextNeverChange := by
  intro s t h
  obtain ⟨hcfg, hmem, hpes, hsmmus⟩ := step_sameCounts h
  exact ⟨hcfg, fun a => by rw [hmem], hpes, hsmmus⟩

/-! ### Registers -/

/-- A replaced PE that keeps its registers changes no PE's. -/
theorem regs_setPe_of_regs_eq {s : State} {p : Nat} {v : Pe} (hv : v.regs = (s.pe p).regs) (q : Nat) :
    ((s.setPe p v).pe q).regs = (s.pe q).regs := by
  rw [pe_setPe]
  split
  · next h => rw [hv, h.1]
  · rfl

/-- Settles O40: an instruction replaces only the PE whose turn it is, and of the environment's moves only a return and
software write registers. -/
theorem registersChangeOnlyOnOwnMoves : Obligations.RegistersChangeOnlyOnOwnMoves := by
  intro s t p h hne
  cases stepNext_of_step h with
  | idle cur rest _ => exact absurd rfl hne
  | exec q rest i t hturn _ _ hexec =>
    by_cases hq : p = q
    · exact .inl (hq ▸ hturn)
    · exact absurd (congrArg Pe.regs (exec_pe_ne hexec hq)) hne
  | move ev rest hev =>
    have hmove := environment_outcome { s with events := rest } ev
    generalize State.environment { s with events := rest } ev = t at hmove hne
    cases hmove with
    | nothing => exact absurd rfl hne
    | mmu a m _ => exact absurd (setMmu_regs _ a m p) hne
    | complete q op _ _ => exact absurd (regs_setPe_of_regs_eq (by rfl) p) hne
    | regs q r _ hway =>
      have hq : p = q := Decidable.byContradiction fun hq => hne (congrArg Pe.regs (pe_setPe_ne _ _ hq))
      subst hq
      rcases hway with rfl | ⟨rfl, -⟩
      · exact .inr (.inr ⟨r, rest, hev⟩)
      · exact .inr (.inl ⟨rest, hev⟩)

/-! ### Pending operations -/

/-- A replaced PE that keeps its pending set changes no PE's. -/
theorem pending_setPe_of_pending_eq {s : State} {p : Nat} {v : Pe} (hv : v.pending = (s.pe p).pending) (q : Nat) :
    ((s.setPe p v).pe q).pending = (s.pe q).pending := by
  rw [pe_setPe]
  split
  · next h => rw [hv, h.1]
  · rfl

theorem pending_raiseUndefined (s : State) (q : Nat) : (s.raiseUndefined.pe q).pending = (s.pe q).pending :=
  pending_setPe_of_pending_eq (by rfl) q

theorem pending_trapToEl2 (s : State) (i : Instr) (q : Nat) : ((s.trapToEl2 i).pe q).pending = (s.pe q).pending :=
  pending_setPe_of_pending_eq (by rfl) q

/-- Starting an operation adds its record to the executing PE's pending set and to no other. -/
theorem mem_pending_addOp {s : State} {op o : TlbiOp} {q : Nat} :
    o ∈ ((s.addOp op).pe q).pending ↔ o ∈ (s.pe q).pending ∨ (q = s.cur ∧ s.cur < s.pes.length ∧ o = op) := by
  rw [State.addOp, pe_setPe]
  split
  · next h =>
    obtain ⟨rfl, hlt⟩ := h
    simp [hlt]
  · next h =>
    constructor
    · exact .inl
    · rintro (ho | ⟨hq, hlt, -⟩)
      · exact ho
      · exact absurd ⟨hq, hlt⟩ h

/-- An instruction removes no pending operation. -/
theorem exec_mem_pending {i : Instr} {s t : State} (h : exec i s = .next t) {q : Nat} {o : TlbiOp}
    (ho : o ∈ (s.pe q).pending) : o ∈ (t.pe q).pending := by
  have hout := exec_outcome i s
  rw [h] at hout
  cases hout with
  | issue sec attr _ _ _ => exact mem_pending_addOp.mpr (.inl ho)
  | undefined => rwa [pending_raiseUndefined]
  | trap _ _ => rwa [pending_trapToEl2]

/-- A pending operation that an instruction adds is the record it issues, above EL0, for its own PE. -/
theorem exec_new_pending {i : Instr} {s t : State} (h : exec i s = .next t) {q : Nat} {o : TlbiOp}
    (hold : o ∉ (s.pe q).pending) (hnew : o ∈ (t.pe q).pending) :
    q = s.cur ∧ s.regs.pstate.el ≠ .el0
      ∧ ∃ sec, securityState s.cfg s.regs = some sec ∧ ∃ attr, AttrIs s.cfg s.regs i attr ∧ o = s.tlbiOp sec attr i.rt := by
  have hout := exec_outcome i s
  rw [h] at hout
  cases hout with
  | issue sec attr hsec hel hattr =>
    rcases mem_pending_addOp.mp hnew with ho | ⟨hq, -, ho⟩
    · exact absurd ho hold
    · exact ⟨hq, hel, sec, hsec, attr, hattr, ho⟩
  | undefined => exact absurd (pending_raiseUndefined s q ▸ hnew) hold
  | trap _ _ => exact absurd (pending_trapToEl2 s i q ▸ hnew) hold

/-- The environment keeps every pending set but for the operation that completes. -/
theorem environment_pending (s : State) (ev : Event) (q : Nat) :
    ((s.environment ev).pe q).pending = (s.pe q).pending
      ∨ ∃ op, ev = .complete q op ∧ s.canComplete op = true ∧ (∀ a, (s.environment ev).mmu a = s.mmu a)
          ∧ ((s.environment ev).pe q).pending = (s.pe q).pending.erase op := by
  have hmove := environment_outcome s ev
  generalize s.environment ev = t at hmove ⊢
  cases hmove with
  | nothing => exact .inl rfl
  | mmu a m _ => exact .inl (setMmu_pending s a m q)
  | regs p r _ _ => exact .inl (pending_setPe_of_pending_eq (by rfl) q)
  | complete p op hev hc =>
    rw [pe_setPe]
    split
    · next h =>
      obtain ⟨rfl, -⟩ := h
      exact .inr ⟨op, hev, hc, mmu_setPe_of_mmu_eq s q _ (by rfl), rfl⟩
    · exact .inl rfl

/-- What is left with an agent depends on the configuration and on the agent. -/
theorem nothingLeft_congr {s t : State} {op : TlbiOp} {a : AgentId} (hcfg : t.cfg = s.cfg) (hmmu : t.mmu a = s.mmu a) :
    NothingLeft t op a ↔ NothingLeft s op a := by
  unfold NothingLeft
  rw [hcfg, hmmu]

/-- Settles O36: no instruction removes a record, and a completion removes the one it names when nothing is left. -/
theorem onlyCompletionEndsAnOperation : Obligations.OnlyCompletionEndsAnOperation := by
  intro s t p op h hold hgone
  cases stepNext_of_step h with
  | idle cur rest _ => exact absurd hold hgone
  | exec q rest i t _ _ _ hexec => exact absurd (exec_mem_pending hexec hold) hgone
  | move ev rest hev =>
    have hsame := environment_sameMachine { s with events := rest } ev
    rcases environment_pending { s with events := rest } ev p with hkeep | ⟨op', rfl, hc, hmmu, herase⟩
    · exact absurd (hkeep ▸ hold) hgone
    · rw [herase] at hgone
      have hop : op = op' := Decidable.byContradiction fun hne => hgone ((List.mem_erase_of_ne hne).mpr hold)
      subst hop
      refine ⟨⟨rest, hev⟩, fun a ha => ?_⟩
      rw [hsame.cfg] at ha
      exact (nothingLeft_congr hsame.cfg (hmmu a)).mpr ((canComplete_iff _ op).mp hc a ha)

/-- Settles O37: a new record is the one that the instruction fetched on the PE's own turn issues. -/
theorem onlyPrivilegedInstructionsStartOperations : Obligations.OnlyPrivilegedInstructionsStartOperations := by
  intro s t p op h hold hnew
  cases stepNext_of_step h with
  | idle cur rest _ => exact absurd hnew hold
  | exec q rest i t hturn _ hfetch hexec =>
    obtain ⟨rfl, hel, sec, hsec, attr, hattr, rfl⟩ := exec_new_pending hexec (q := p) hold hnew
    obtain ⟨-, -, bs, hbs, hdecode⟩ := fetch_eq_instr hfetch
    exact ⟨hturn, hel, i, bs, hbs, hdecode, tlbiOp_recordOf _ attr i.rt hsec, tlbiOp_targetIs _ sec attr i.rt hel, hattr⟩
  | move ev rest _ =>
    rcases environment_pending { s with events := rest } ev p with hkeep | ⟨op', -, -, -, herase⟩
    · exact absurd (hkeep ▸ hnew) hold
    · rw [herase] at hnew
      exact absurd (List.mem_of_mem_erase hnew) hold

/-! ### TLBs and accesses in flight -/

/-- What a move makes of the TLB and accesses of the agent it is of. -/
inductive AgentMove (s : State) (a : AgentId) : Event → Mmu → Prop where
  | fill (e : TlbEntry) : AgentMove s a (.fill a e) { s.mmu a with tlb := fillTlb s.cfg e (s.mmu a).tlb }
  | drop (e : TlbEntry) : AgentMove s a (.drop a e) { s.mmu a with tlb := (s.mmu a).tlb.erase e }
  | invalidate (p : Nat) (op : TlbiOp) (hop : op ∈ (s.pe p).pending) (ha : a ∈ scope s.cfg op) :
      AgentMove s a (.invalidate a p op)
        { s.mmu a with tlb := (s.mmu a).tlb.filter (fun e => !required s.cfg op a e) }
  | start (m : Access) (hused : ∀ e ∈ m.used, e ∈ (s.mmu a).tlb) :
      AgentMove s a (.start a m) { s.mmu a with inflight := (s.mmu a).inflight ++ [m] }
  | finish (m : Access) : AgentMove s a (.finish a m) { s.mmu a with inflight := (s.mmu a).inflight.erase m }

/-- The environment keeps an agent's TLB and accesses, or it was a move of that agent. -/
theorem environment_mmu (s : State) (ev : Event) (a : AgentId) :
    (s.environment ev).mmu a = s.mmu a ∨ AgentMove s a ev ((s.environment ev).mmu a) := by
  have hmove := environment_outcome s ev
  generalize s.environment ev = t at hmove ⊢
  cases hmove with
  | nothing => exact .inl rfl
  | regs p r _ _ => exact .inl (mmu_setPe_of_mmu_eq s p _ (by rfl) a)
  | complete p op _ _ => exact .inl (mmu_setPe_of_mmu_eq s p _ (by rfl) a)
  | mmu b m hway =>
    rcases mmu_setMmu s b a m with ⟨rfl, -, hm⟩ | ⟨-, hkeep⟩
    · rw [hm]
      refine .inr ?_
      rcases hway with ⟨e, rfl, rfl⟩ | ⟨e, rfl, rfl⟩ | ⟨p, op, rfl, hop, ha, rfl⟩ | ⟨n, rfl, hused, rfl⟩ | ⟨n, rfl, rfl⟩
      · exact .fill e
      · exact .drop e
      · exact .invalidate p op hop ha
      · exact .start n hused
      · exact .finish n
    · exact .inl hkeep

/-- An agent's TLB and accesses change only by a move of that agent. -/
theorem step_mmu {s t : State} (h : step s = .next t) (a : AgentId) :
    t.mmu a = s.mmu a ∨ ∃ ev rest, s.events = ev :: rest ∧ AgentMove { s with events := rest } a ev (t.mmu a) := by
  cases stepNext_of_step h with
  | idle cur rest _ => exact .inl (mmu_curEvents s cur rest a)
  | exec p rest i t _ _ _ hexec => exact .inl ((exec_mmu hexec a).trans (mmu_curEvents s p rest a))
  | move ev rest hev =>
    rcases environment_mmu { s with events := rest } ev a with hkeep | hmove
    · exact .inl (hkeep.trans (mmu_events s rest a))
    · exact .inr ⟨ev, rest, hev, hmove⟩

/-- Settles O38, by what each move of the agent makes of its TLB. -/
theorem tlbsChangeOnlyByTheirMoves : Obligations.TlbsChangeOnlyByTheirMoves := by
  intro s t a e h
  rcases step_mmu h a with hkeep | ⟨ev, rest, hev, hmove⟩
  · rw [hkeep]
    exact ⟨fun hold hgone => absurd hold hgone, fun hold hnew => absurd hnew hold⟩
  · generalize t.mmu a = m at hmove
    cases hmove with
    | fill f =>
      simp only [mmu_events, mem_fillTlb]
      refine ⟨fun hold hgone => absurd (.inl hold) hgone, ?_⟩
      rintro hold (hnew | ⟨rfl, hwf⟩)
      · exact absurd hnew hold
      · exact ⟨rest, hev, hwf⟩
    | drop f =>
      simp only [mmu_events]
      refine ⟨fun hold hgone => .inl ⟨rest, ?_⟩, fun hold hnew => absurd (List.mem_of_mem_erase hnew) hold⟩
      have hef : e = f := Decidable.byContradiction fun hne => hgone ((List.mem_erase_of_ne hne).mpr hold)
      rw [hef]; exact hev
    | invalidate p op hop ha =>
      simp only [mmu_events, List.mem_filter, Bool.not_eq_true']
      refine ⟨fun hold hgone => .inr ⟨p, op, rest, hev, hop, ha, ?_⟩, fun hold hnew => absurd hnew.1 hold⟩
      rw [← Bool.not_eq_false]
      exact fun hreq => hgone ⟨hold, hreq⟩
    | start n _ =>
      simp only [mmu_events]
      exact ⟨fun hold hgone => absurd hold hgone, fun hold hnew => absurd hnew hold⟩
    | finish n =>
      simp only [mmu_events]
      exact ⟨fun hold hgone => absurd hold hgone, fun hold hnew => absurd hnew hold⟩

theorem count_append_singleton {α : Type} [DecidableEq α] (l : List α) (x y : α) :
    (l ++ [x]).count y = l.count y + if y = x then 1 else 0 := by
  rw [List.count_append, List.count_singleton]
  simp only [beq_iff_eq, eq_comm (a := y)]

theorem count_erase_eq {α : Type} [DecidableEq α] (l : List α) (x y : α) :
    (l.erase x).count y = l.count y - if y = x then 1 else 0 := by
  rw [List.count_erase]
  simp only [beq_iff_eq, eq_comm (a := y)]

/-- An unchanged list has neither one more nor one fewer of any member, whatever that would entail. -/
theorem count_changes_of_eq {α : Type} [DecidableEq α] {l l' : List α} (h : l' = l) (x : α) (P Q : Prop) :
    (l.count x < l'.count x → P) ∧ (l'.count x < l.count x → Q) := by
  rw [h]
  exact ⟨fun hlt => absurd hlt (Nat.lt_irrefl _), fun hlt => absurd hlt (Nat.lt_irrefl _)⟩

/-- Settles O49: of the moves of an agent only a start adds an access and only a finish takes one away, its own. -/
theorem accessesChangeOnlyByTheirMoves : Obligations.AccessesChangeOnlyByTheirMoves := by
  intro s t a m h
  rcases step_mmu h a with hkeep | ⟨ev, rest, hev, hmove⟩
  · exact count_changes_of_eq (by rw [hkeep]) m _ _
  · generalize t.mmu a = mmu at hmove
    cases hmove with
    | fill e => exact count_changes_of_eq (by rw [mmu_events]) m _ _
    | drop e => exact count_changes_of_eq (by rw [mmu_events]) m _ _
    | invalidate p op _ _ => exact count_changes_of_eq (by rw [mmu_events]) m _ _
    | start n hused =>
      simp only [mmu_events, count_append_singleton] at hused ⊢
      by_cases hn : m = n
      · subst hn
        rw [if_pos rfl]
        exact ⟨fun _ => ⟨⟨rest, hev⟩, hused, rfl⟩, by omega⟩
      · rw [if_neg hn]
        exact ⟨by omega, by omega⟩
    | finish n =>
      simp only [mmu_events, count_erase_eq]
      by_cases hn : m = n
      · subst hn
        rw [if_pos rfl]
        exact ⟨by omega, fun hlt => ⟨⟨rest, hev⟩, by omega⟩⟩
      · rw [if_neg hn]
        exact ⟨by omega, by omega⟩

/-! ### The moves of an agent on its own -/

theorem setMmu_mmu_self {s : State} {a : AgentId} (m : Mmu) (ha : s.hasAgent a) : (s.setMmu a m).mmu a = m := by
  rcases mmu_setMmu s a a m with ⟨-, -, hm⟩ | ⟨hne | hno, -⟩
  · exact hm
  · exact absurd rfl hne
  · exact absurd ha hno

theorem setMmu_mmu_ne {s : State} {a b : AgentId} (m : Mmu) (hb : b ≠ a) : (s.setMmu a m).mmu b = s.mmu b := by
  rcases mmu_setMmu s a b m with ⟨heq, -, -⟩ | ⟨-, hm⟩
  · exact absurd heq hb
  · exact hm

/-- Using up a move and replacing the TLB and accesses of one agent changes nothing else. -/
theorem setMmu_sameButMmu {s : State} {ev : Event} {rest : List Event} (hev : s.events = ev :: rest) (a : AgentId)
    (m : Mmu) : SameButMmu s (State.setMmu { s with events := rest } a m) a := by
  refine ⟨by simp, fun _ => by simp, by simp, by simp, fun q => by simp, fun b hb => ?_, by simp, by simp, by simp [hev]⟩
  rw [setMmu_mmu_ne m hb, mmu_events]

/-- A step whose move replaces the TLB and accesses of an existing agent. -/
theorem step_setMmu {s : State} {ev : Event} {rest : List Event} {a : AgentId} {m : Mmu} (hev : s.events = ev :: rest)
    (ha : s.hasAgent a) (hstep : step s = .next (State.setMmu { s with events := rest } a m)) :
    ∃ t, step s = .next t ∧ t.mmu a = m ∧ SameButMmu s t a := by
  have ha' : State.hasAgent { s with events := rest } a := by cases a <;> exact ha
  exact ⟨_, hstep, setMmu_mmu_self m ha', setMmu_sameButMmu hev a m⟩

section
variable {s : State} {a : AgentId} {rest : List Event}

theorem step_fill {e : TlbEntry} (hev : s.events = .fill a e :: rest) :
    step s = .next (State.setMmu { s with events := rest } a
      { s.mmu a with tlb := fillTlb s.cfg e (s.mmu a).tlb }) := by
  simp only [step, hev, State.environment, State.envFill, mmu_events]

theorem step_drop {e : TlbEntry} (hev : s.events = .drop a e :: rest) :
    step s = .next (State.setMmu { s with events := rest } a { s.mmu a with tlb := (s.mmu a).tlb.erase e }) := by
  simp only [step, hev, State.environment, State.envDrop, mmu_events]

theorem step_start {m : Access} (hev : s.events = .start a m :: rest) (hused : ∀ e ∈ m.used, e ∈ (s.mmu a).tlb) :
    step s = .next (State.setMmu { s with events := rest } a
      { s.mmu a with inflight := (s.mmu a).inflight ++ [m] }) := by
  have hall : m.used.all (fun e => (s.mmu a).tlb.contains e) = true := by simpa [List.all_eq_true] using hused
  simp only [step, hev, State.environment, State.envStart, mmu_events, hall, if_true]

theorem step_finish {m : Access} (hev : s.events = .finish a m :: rest) :
    step s = .next (State.setMmu { s with events := rest } a
      { s.mmu a with inflight := (s.mmu a).inflight.erase m }) := by
  simp only [step, hev, State.environment, State.envFinish, mmu_events]

end

/-- Settles O50: each of the four moves replaces the TLB and accesses of its agent by what it names. -/
theorem agentMovesDoWhatTheyName : Obligations.AgentMovesDoWhatTheyName := by
  intro s a rest ha
  refine ⟨fun e hev hwf => ?_, fun e hev hnodup => ?_, fun m hev hused => ?_, fun m hev => ?_⟩
  · obtain ⟨t, hstep, hm, hsame⟩ := step_setMmu hev ha (step_fill hev)
    refine ⟨t, hstep, fun e' => ?_, by rw [hm], hsame⟩
    rw [hm, mem_fillTlb, and_iff_left hwf]
  · obtain ⟨t, hstep, hm, hsame⟩ := step_setMmu hev ha (step_drop hev)
    refine ⟨t, hstep, fun e' => ?_, by rw [hm], hsame⟩
    rw [hm, hnodup.mem_erase_iff, and_comm]
  · obtain ⟨t, hstep, hm, hsame⟩ := step_setMmu hev ha (step_start hev hused)
    refine ⟨t, hstep, fun m' => ?_, by rw [hm], hsame⟩
    rw [hm, count_append_singleton]
  · obtain ⟨t, hstep, hm, hsame⟩ := step_setMmu hev ha (step_finish hev)
    refine ⟨t, hstep, fun m' => ?_, by rw [hm], hsame⟩
    rw [hm, count_erase_eq]

end Sys2Proof.Machine

/-! PROOFS. The invariant: it holds after reset, and every update of the state that a step is made of keeps it
(10_state.md R16, R17, R27, R28, R32, R35). -/

namespace Sys2Proof.Machine

/-! ### Legal registers -/

theorem aligned4_iff (a : DWord) : aligned4 a = true ↔ a.toNat % 4 = 0 := by
  rw [aligned4, beq_iff_eq, ← BitVec.toNat_inj, BitVec.extractLsb'_toNat, Nat.shiftRight_zero]
  rfl

/-- The sum of two multiples of 4 is one, the wrap at 2^64 included. -/
theorem aligned4_add {a b : DWord} (ha : aligned4 a = true) (hb : aligned4 b = true) : aligned4 (a + b) = true := by
  rw [aligned4_iff] at ha hb ⊢
  rw [BitVec.toNat_add]
  omega

theorem aligned4_vectorOffset (old : Pstate) (l : ExcLevel) : aligned4 (vectorOffset old l) = true := by
  unfold vectorOffset
  split
  · rfl
  · split <;> rfl

/-- Legal registers, bank by bank: a level that can be current, and every instruction address a multiple of 4. -/
theorem legal_iff (cfg : Config) (r : PeRegs) :
    r.legal cfg = true ↔ legalEL cfg r = true ∧ aligned4 r.pc = true
      ∧ ∀ l, aligned4 (r.bank l).vbar = true ∧ aligned4 (r.bank l).elr = true := by
  simp only [PeRegs.legal, Bool.and_eq_true]
  constructor
  · rintro ⟨⟨⟨⟨⟨⟨⟨hel, hpc⟩, v1⟩, v2⟩, v3⟩, e1⟩, e2⟩, e3⟩
    refine ⟨hel, hpc, fun l => ?_⟩
    cases l with
    | el1 => exact ⟨v1, e1⟩
    | el2 => exact ⟨v2, e2⟩
    | el3 => exact ⟨v3, e3⟩
  · rintro ⟨hel, hpc, hbank⟩
    obtain ⟨v1, e1⟩ := hbank .el1
    obtain ⟨v2, e2⟩ := hbank .el2
    obtain ⟨v3, e3⟩ := hbank .el3
    exact ⟨⟨⟨⟨⟨⟨⟨hel, hpc⟩, v1⟩, v2⟩, v3⟩, e1⟩, e2⟩, e3⟩

/-- The highest implemented level can be current, and every address after reset is aligned where `ResetPC` is. -/
theorem legal_atReset {cfg : Config} (h : aligned4 cfg.resetPC = true) : (PeRegs.atReset cfg).legal cfg = true := by
  refine (legal_iff _ _).mpr ⟨?_, h, fun l => by cases l <;> exact ⟨rfl, rfl⟩⟩
  cases h3 : cfg.haveEL3 <;> cases h2 : cfg.haveEL2 <;> simp [legalEL, PeRegs.atReset, highestEL, el2Enabled, h3, h2]

theorem legal_advance {cfg : Config} {pe : Pe} (h : pe.regs.legal cfg = true) : pe.advance.regs.legal cfg = true := by
  obtain ⟨hel, hpc, hbank⟩ := (legal_iff _ _).mp h
  refine (legal_iff _ _).mpr ⟨hel, aligned4_add hpc rfl, fun l => ?_⟩
  rw [advance_bank]
  exact hbank l

/-- The level an exception is taken to can be current (10_state.md R17). -/
def ExcLevel.available (cfg : Config) (r : PeRegs) : ExcLevel → Prop
  | .el1 => True
  | .el2 => el2Enabled cfg r = true
  | .el3 => cfg.haveEL3 = true

/-- Taking an exception to a level that can be current keeps the registers legal: the vector and the saved pc are
instruction addresses. -/
theorem legal_takeException {cfg : Config} {pe : Pe} {l : ExcLevel} (esr : BitVec 32) (why : Raised)
    (h : pe.regs.legal cfg = true) (hl : l.available cfg pe.regs) :
    (pe.takeException l esr why).regs.legal cfg = true := by
  obtain ⟨-, hpc, hbank⟩ := (legal_iff _ _).mp h
  have hel : legalEL cfg (pe.takeException l esr why).regs = true := by
    cases l with
    | el1 => rfl
    | el2 => exact hl
    | el3 => exact hl
  refine (legal_iff _ _).mpr ⟨hel, ?_, fun l' => ?_⟩
  · rw [takeException_pc]
    exact aligned4_add (hbank l).1 (aligned4_vectorOffset _ _)
  · by_cases hsame : l' = l
    · subst hsame
      rw [takeException_bank]
      exact ⟨(hbank l').1, hpc⟩
    · rw [takeException_bank_ne pe esr why hsame]
      exact hbank l'

/-- An Undefined exception is taken to EL2 only where that is enabled or current, to EL3 only where that is current. -/
theorem undefinedTarget_available {cfg : Config} {r : PeRegs} (h : legalEL cfg r = true) :
    (undefinedTarget cfg r).available cfg r := by
  unfold undefinedTarget
  unfold legalEL at h
  cases hlevel : r.pstate.el <;> rw [hlevel] at h
  case el0 =>
    show ExcLevel.available cfg r (if el2Enabled cfg r && r.hcr.tge then .el2 else .el1)
    split
    · next htge => exact (Bool.and_eq_true _ _ ▸ htge).1
    · trivial
  case el1 => trivial
  case el2 => exact h
  case el3 => exact h

/-! ### After reset -/

theorem pe_resetOf {cfg : Config} {p : Nat} (hp : p < cfg.pes.length) : (State.resetOf cfg).pe p = Pe.atReset cfg p := by
  simp [State.pe, State.resetOf, hp]

/-- After reset a number that names no PE reads as one with nothing pending, as every PE does. -/
theorem pending_resetOf (cfg : Config) (p : Nat) : ((State.resetOf cfg).pe p).pending = [] := by
  by_cases hp : p < cfg.pes.length
  · rw [pe_resetOf hp]; rfl
  · rw [pe_of_le _ (by simpa [State.resetOf] using hp)]; rfl

theorem inflight_resetOf (cfg : Config) (a : AgentId) : ((State.resetOf cfg).mmu a).inflight = [] := by
  cases a with
  | pe n =>
    by_cases hn : n < cfg.pes.length
    · rw [State.mmu, pe_resetOf hn]; rfl
    · rw [State.mmu, pe_of_le _ (by simpa [State.resetOf] using hn)]; rfl
  | smmu n =>
    by_cases hn : n < cfg.smmuCount
    · simp [State.mmu, State.resetOf, hn, Mmu.atReset]
    · simp [State.mmu, State.resetOf, hn]; rfl

/-- Settles O44: every PE has the same legal registers, TLBs come from fills, and nothing is pending. -/
theorem invariantHoldsAtReset : Obligations.InvariantHoldsAtReset := by
  intro cfg hwf
  have hpc : aligned4 cfg.resetPC = true := by
    rw [Config.wf, Bool.and_eq_true] at hwf
    exact hwf.2
  have hcount : 0 < cfg.pes.length := by
    rw [Config.wf, Bool.and_eq_true, Bool.and_eq_true] at hwf
    exact of_decide_eq_true hwf.1.1
  exact {
    cfgWf := hwf
    memWf := rfl
    peCount := by simp [State.resetOf]
    smmuCount := by simp [State.resetOf]
    curExists := by simpa [State.resetOf] using hcount
    regsLegal := by simpa [State.resetOf, Pe.atReset] using fun _ _ => legal_atReset hpc
    peTlb := by simpa [State.resetOf, Pe.atReset, Mmu.atReset] using fun n _ => TlbWf.reset cfg (.pe n)
    smmuTlb := by simpa [State.resetOf, Mmu.atReset] using fun n _ => TlbWf.reset cfg (.smmu n)
    pendingWf := fun p op hop => by rw [pending_resetOf] at hop; cases hop
    pendingNodup := fun p => by rw [pending_resetOf]; exact List.nodup_nil }

/-- Settles O46, by what the state after reset reads for each PE and agent. -/
theorem resetLeavesNothingPending : Obligations.ResetLeavesNothingPending := by
  intro cfg p hp
  have hlevel : ((State.resetOf cfg).pe p).regs.pstate.el = highestEL cfg := by rw [pe_resetOf hp]; rfl
  refine ⟨by rw [pe_resetOf hp]; rfl, fun h3 => ?_, fun h3 h2 => ?_, fun h3 h2 => ?_, pending_resetOf cfg p,
    inflight_resetOf cfg⟩
  · simp [hlevel, highestEL, h3]
  · simp [hlevel, highestEL, h3, h2]
  · simp [hlevel, highestEL, h3, h2]

/-! ### What the invariant asks of one PE -/

/-- The part of the invariant that speaks of PE number `p`. -/
structure PeWf (cfg : Config) (p : Nat) (pe : Pe) : Prop where
  legal : pe.regs.legal cfg = true
  tlb : TlbWf cfg pe.mmu.tlb
  ops : ∀ op ∈ pe.pending, OpWf p op
  nodup : pe.pending.Nodup

theorem State.Inv.peWf {s : State} (h : s.Inv) {p : Nat} (hp : p < s.pes.length) : PeWf s.cfg p (s.pe p) :=
  ⟨h.regsLegal _ (pe_mem s hp), h.peTlb _ (pe_mem s hp), h.pendingWf p, h.pendingNodup p⟩

/-- Whose turn it is, the moves to come and the free values used can change. -/
theorem State.Inv.bookkeeping {s : State} (h : s.Inv) {cur : Nat} (hcur : cur < s.pes.length) (events : List Event)
    (freeCount : Nat) : State.Inv { s with cur := cur, events := events, freeCount := freeCount } :=
  ⟨h.cfgWf, h.memWf, h.peCount, h.smmuCount, hcur, h.regsLegal, h.peTlb, h.smmuTlb, h.pendingWf, h.pendingNodup⟩

theorem setPe_of_le {s : State} {p : Nat} (v : Pe) (hp : s.pes.length ≤ p) : s.setPe p v = s := by
  rw [State.setPe, List.set_eq_of_length_le hp]

/-- A PE can be replaced by one that meets its part of the invariant. -/
theorem State.Inv.setPe {s : State} (h : s.Inv) {p : Nat} {v : Pe} (hv : p < s.pes.length → PeWf s.cfg p v) :
    (s.setPe p v).Inv := by
  by_cases hp : p < s.pes.length
  · obtain ⟨hlegal, htlb, hops, hnodup⟩ := hv hp
    exact {
      cfgWf := h.cfgWf
      memWf := h.memWf
      peCount := by simpa using h.peCount
      smmuCount := h.smmuCount
      curExists := by simpa using h.curExists
      regsLegal := fun pe hpe => by
        rcases List.mem_or_eq_of_mem_set hpe with hold | rfl
        · exact h.regsLegal pe hold
        · exact hlegal
      peTlb := fun pe hpe => by
        rcases List.mem_or_eq_of_mem_set hpe with hold | rfl
        · exact h.peTlb pe hold
        · exact htlb
      smmuTlb := h.smmuTlb
      pendingWf := fun q op hop => by
        rw [pe_setPe] at hop
        split at hop
        · next hq => rw [hq.1]; exact hops op hop
        · exact h.pendingWf q op hop
      pendingNodup := fun q => by
        rw [pe_setPe]
        split
        · exact hnodup
        · exact h.pendingNodup q }
  · rw [setPe_of_le v (Nat.le_of_not_lt hp)]
    exact h

/-- Every agent's TLB is a set of entries within bounds, the empty one of a number that names no agent among them. -/
theorem State.Inv.tlb {s : State} (h : s.Inv) (a : AgentId) : TlbWf s.cfg (s.mmu a).tlb := by
  cases a with
  | pe n =>
    by_cases hn : n < s.pes.length
    · exact (h.peWf hn).tlb
    · rw [State.mmu, pe_of_le s (Nat.le_of_not_lt hn)]; exact TlbWf.nil _
  | smmu n =>
    by_cases hn : n < s.smmus.length
    · simpa [State.mmu, hn] using h.smmuTlb _ (List.getElem_mem hn)
    · have hdefault : s.mmu (.smmu n) = default := by simp [State.mmu, hn]
      rw [hdefault]; exact TlbWf.nil _

/-- The TLB and accesses of an agent can be replaced by any whose TLB is a set of entries within bounds. -/
theorem State.Inv.setMmu {s : State} (h : s.Inv) (a : AgentId) {m : Mmu} (hm : TlbWf s.cfg m.tlb) :
    (s.setMmu a m).Inv := by
  cases a with
  | pe n =>
    refine h.setPe fun hn => ?_
    obtain ⟨hlegal, -, hops, hnodup⟩ := h.peWf hn
    exact ⟨hlegal, hm, hops, hnodup⟩
  | smmu n =>
    exact {
      cfgWf := h.cfgWf
      memWf := h.memWf
      peCount := h.peCount
      smmuCount := by simpa [State.setMmu] using h.smmuCount
      curExists := h.curExists
      regsLegal := h.regsLegal
      peTlb := h.peTlb
      smmuTlb := fun m' hm' => by
        rcases List.mem_or_eq_of_mem_set hm' with hold | rfl
        · exact h.smmuTlb m' hold
        · exact hm
      pendingWf := h.pendingWf
      pendingNodup := h.pendingNodup }

/-! ### The invariant through a step -/

/-- A record a PE builds is for one of the two regimes, with no VMID for EL2&0 (20_memory.md R43). -/
theorem tlbiOp_wf (s : State) (sec : SecurityState) (attr : XsAttr) (t : Nat) : OpWf s.cur (s.tlbiOp sec attr t) := by
  rcases targetRegime_cases s.cfg s.regs with ⟨-, h⟩ | ⟨-, h⟩
  · have hregime : (s.tlbiOp sec attr t).regime = .el20 := congrArg Prod.fst h
    exact ⟨rfl, .inr hregime, fun _ => congrArg Prod.snd h⟩
  · have hregime : (s.tlbiOp sec attr t).regime = .el10 := congrArg Prod.fst h
    exact ⟨rfl, .inl hregime, fun h20 => by rw [hregime] at h20; cases h20⟩

/-- Taking an exception to a level that can be current keeps a PE's part of the invariant. -/
theorem PeWf.takeException {cfg : Config} {p : Nat} {pe : Pe} (h : PeWf cfg p pe) {l : ExcLevel} (esr : BitVec 32)
    (why : Raised) (hl : l.available cfg pe.regs) : PeWf cfg p (pe.takeException l esr why) :=
  ⟨legal_takeException esr why h.legal hl, h.tlb, h.ops, h.nodup⟩

/-- Starting a well-formed operation keeps a PE's part of the invariant. -/
theorem PeWf.issue {cfg : Config} {p : Nat} {pe : Pe} (h : PeWf cfg p pe) {op : TlbiOp} (hop : OpWf p op) :
    PeWf cfg p (Pe.advance { pe with pending := insertNew op pe.pending }) where
  legal := legal_advance (pe := { pe with pending := insertNew op pe.pending }) h.legal
  tlb := h.tlb
  ops o ho := by
    rcases (mem_insertNew op o pe.pending).mp ho with hold | rfl
    · exact h.ops o hold
    · exact hop
  nodup := nodup_insertNew op h.nodup

/-- An instruction keeps the invariant. -/
theorem State.Inv.exec {i : Instr} {s t : State} (h : s.Inv) (hexec : exec i s = .next t) : t.Inv := by
  have hpe : PeWf s.cfg s.cur (s.pe s.cur) := h.peWf h.curExists
  have ho := exec_outcome i s
  rw [hexec] at ho
  cases ho with
  | issue sec attr _ _ _ => exact h.setPe fun _ => hpe.issue (tlbiOp_wf s sec attr i.rt)
  | undefined =>
    have hlevel : legalEL s.cfg s.regs = true := ((legal_iff _ _).mp hpe.legal).1
    have hset := h.setPe fun _ => hpe.takeException (undefinedSyndrome (Config.undefinedIL s.freeCount))
      (.undefined s.regs.pstate.el) (undefinedTarget_available hlevel)
    exact hset.bookkeeping hset.curExists s.events (s.freeCount + 1)
  | trap _ hon => exact h.setPe fun _ => hpe.takeException _ _ ((el2Enabled_iff _ _).mpr hon)

/-- A move of the environment keeps the invariant. -/
theorem State.Inv.environment {s : State} (h : s.Inv) (ev : Event) : (s.environment ev).Inv := by
  have hmove := environment_outcome s ev
  generalize s.environment ev = t at hmove
  cases hmove with
  | nothing => exact h
  | mmu a m hway =>
    have htlb : TlbWf s.cfg (s.mmu a).tlb := h.tlb a
    refine h.setMmu a ?_
    rcases hway with ⟨e, -, rfl⟩ | ⟨e, -, rfl⟩ | ⟨p, op, -, -, -, rfl⟩ | ⟨n, -, -, rfl⟩ | ⟨n, -, rfl⟩
    · exact htlb.fill e
    · exact htlb.erase e
    · exact htlb.filter _
    · exact htlb
    · exact htlb
  | regs p r hl _ =>
    refine h.setPe fun hp => ?_
    obtain ⟨-, htlb, hops, hnodup⟩ := h.peWf hp
    exact ⟨hl, htlb, hops, hnodup⟩
  | complete p op _ _ =>
    refine h.setPe fun hp => ?_
    obtain ⟨hlegal, htlb, hops, hnodup⟩ := h.peWf hp
    exact ⟨hlegal, htlb, fun o ho => hops o (List.mem_of_mem_erase ho), hnodup.erase op⟩

/-- Settles O45: a step uses up a move, runs an instruction or makes a move of the environment; each keeps the invariant. -/
theorem stepKeepsInvariant : Obligations.StepKeepsInvariant := by
  intro s t h hstep
  cases stepNext_of_step hstep with
  | idle cur rest hcur => exact h.bookkeeping (hcur.elim id fun heq => heq ▸ h.curExists) rest s.freeCount
  | exec p rest i t _ hp _ hexec =>
    exact (h.bookkeeping (hp.elim id fun heq => heq ▸ h.curExists) rest s.freeCount).exec hexec
  | move ev rest _ => exact (h.bookkeeping h.curExists rest s.freeCount).environment ev

end Sys2Proof.Machine

/-! PROOFS. What the condition `Covers` of 40_tlbi_vale1is.md R75 says of the low and the high bits of the operand's
address (20_memory.md R45, R46). -/

namespace Sys2Proof.Machine

/-- The address compared is the operand's page times 4096. -/
theorem toNat_va56 (v : BitVec 44) : (va56 v).toNat = v.toNat * 4096 := by
  calc (va56 v).toNat
    _ = v.toNat <<< 12 ||| (0#12).toNat := BitVec.toNat_append v 0#12
    _ = v.toNat * 4096 := by rw [BitVec.toNat_ofNat, Nat.zero_mod, Nat.or_zero, Nat.shiftLeft_eq]

/-- An entry covers the operand's page where both lie in the same block of the entry's size. -/
theorem covers_iff (e : TlbEntry) (op : TlbiOp) :
    covers e op = true ↔ e.vaBase.toNat / 2 ^ e.log2size = op.vapg.toNat * 4096 / 2 ^ e.log2size := by
  rw [covers, beq_iff_eq, ← BitVec.toNat_inj, BitVec.toNat_ushiftRight, BitVec.toNat_ushiftRight, toNat_va56,
    Nat.shiftRight_eq_div_pow, Nat.shiftRight_eq_div_pow]

theorem covers_of_required {cfg : Config} {op : TlbiOp} {a : AgentId} {e : TlbEntry}
    (h : required cfg op a e = true) : covers e op = true := by
  simp only [required, Bool.and_eq_true] at h
  obtain ⟨⟨⟨⟨⟨-, hcovers⟩, -⟩, -⟩, -⟩, -⟩ := h
  exact hcovers

/-- The operand's address is read by `Covers` only. -/
theorem required_vapg_congr (cfg : Config) {op : TlbiOp} (a : AgentId) {e : TlbEntry} {v : BitVec 44}
    (h : covers e { op with vapg := v } = covers e op) :
    required cfg { op with vapg := v } a e = required cfg op a e := by
  unfold required
  rw [h]
  rfl

/-- Pages that agree above bit `k` lie in the same block of every size from `2 ^ (12 + k)` up. -/
theorem block_eq_of_low_bits {v w k n : Nat} (hk : 12 + k ≤ n) (h : v / 2 ^ k = w / 2 ^ k) :
    v * 4096 / 2 ^ n = w * 4096 / 2 ^ n := by
  obtain ⟨j, rfl⟩ := Nat.exists_eq_add_of_le hk
  have hsplit : ∀ x : Nat, x * 4096 / 2 ^ (12 + k + j) = x / 2 ^ k / 2 ^ j := by
    intro x
    calc x * 4096 / 2 ^ (12 + k + j)
      _ = x * 4096 / (4096 * 2 ^ k * 2 ^ j) := by rw [Nat.pow_add, Nat.pow_add, show 2 ^ 12 = 4096 from rfl]
      _ = x * 4096 / 4096 / 2 ^ k / 2 ^ j := by rw [Nat.div_div_eq_div_mul, Nat.div_div_eq_div_mul, Nat.mul_assoc]
      _ = x / 2 ^ k / 2 ^ j := by rw [Nat.mul_div_cancel x (by decide)]
  rw [hsplit, hsplit, h]

/-- An entry no smaller than `2 ^ (12 + k)` bytes is required alike for operands that agree above bit `k`. -/
theorem required_of_low_bits (cfg : Config) {op : TlbiOp} (a : AgentId) {e : TlbEntry} {v : BitVec 44} {k : Nat}
    (hk : 12 + k ≤ e.log2size) (h : v.toNat / 2 ^ k = op.vapg.toNat / 2 ^ k) :
    required cfg { op with vapg := v } a e = required cfg op a e := by
  refine required_vapg_congr cfg a ?_
  rw [Bool.eq_iff_iff, covers_iff, covers_iff, block_eq_of_low_bits hk h]

theorem wf_bounds {cfg : Config} {e : TlbEntry} (h : e.wf cfg = true) :
    e.granule.minLog2size ≤ e.log2size ∧ e.vaBase.toNat % 2 ^ e.log2size = 0 := by
  simp only [TlbEntry.wf, Bool.and_eq_true, decide_eq_true_eq] at h
  obtain ⟨⟨⟨⟨-, hmin⟩, -⟩, hbase⟩, -⟩ := h
  exact ⟨hmin, hbase⟩

/-- Settles O30: an entry's block is no smaller than its granule, so it holds all pages that differ in the ignored bits. -/
theorem lowVaBitsByGranule : Obligations.LowVaBitsByGranule := by
  intro cfg op a e v hwf
  obtain ⟨hmin, hbase⟩ := wf_bounds hwf
  refine ⟨fun _ hsize hreq => ?_, fun hg h => ?_, fun hg h => ?_⟩
  · have hcovers := (covers_iff e op).mp (covers_of_required hreq)
    rw [hsize] at hcovers hbase
    omega
  · rw [hg] at hmin
    exact required_of_low_bits cfg a (k := 2) hmin h
  · rw [hg] at hmin
    exact required_of_low_bits cfg a (k := 4) hmin h

/-- Settles O31: a page at or above `2 ^ 32` lies in a later block than any entry below it. -/
theorem upperVaBitsMissShortRegimes : Obligations.UpperVaBitsMissShortRegimes := by
  intro cfg op a e hbase hsize hpage
  rw [← Bool.not_eq_true]
  intro hreq
  have hcovers := (covers_iff e op).mp (covers_of_required hreq)
  have hsplit : 2 ^ 32 = 2 ^ (32 - e.log2size) * 2 ^ e.log2size := by
    rw [← Nat.pow_add, Nat.sub_add_cancel hsize]
  have hpos : 0 < 2 ^ e.log2size := Nat.two_pow_pos _
  have hlow : e.vaBase.toNat / 2 ^ e.log2size < 2 ^ (32 - e.log2size) := by
    rwa [Nat.div_lt_iff_lt_mul hpos, ← hsplit]
  have hhigh : 2 ^ (32 - e.log2size) ≤ op.vapg.toNat * 4096 / 2 ^ e.log2size := by
    rw [Nat.le_div_iff_mul_le hpos, ← hsplit]
    omega
  omega

end Sys2Proof.Machine

/-! PROOFS. What a fetch decodes, and what a turn does by each way its fetch can end (20_memory.md R38, R39, R49,
30_encoding.md R71; the fetch memory and the completion point are the model's form, log 10, log 29). -/

namespace Sys2Proof.Machine

/-! ### The words of the test vectors -/

/-- Settles O4: the decoder computes each answer. -/
theorem specWordsDecode : Obligations.SpecWordsDecode :=
  ⟨rfl, rfl, rfl, rfl, rfl, rfl, rfl, rfl, rfl, rfl, rfl⟩

/-! ### The state at the start of a turn -/

/-- `s1` is `s` at the start of the turn that `s` begins with: of the PE that had the last turn, or of the existing PE that
the next move names. -/
def StartsTurn (s s1 : State) : Prop :=
  (s.events = [] ∧ s1 = s)
    ∨ (∃ p rest, s.events = .instr p :: rest ∧ p < s.pes.length ∧ s1 = { s with cur := p, events := rest })

theorem StartsTurn.cfg {s s1 : State} (h : StartsTurn s s1) : s1.cfg = s.cfg := by
  rcases h with ⟨-, rfl⟩ | ⟨p, rest, -, -, rfl⟩ <;> rfl

theorem StartsTurn.mem {s s1 : State} (h : StartsTurn s s1) : s1.mem = s.mem := by
  rcases h with ⟨-, rfl⟩ | ⟨p, rest, -, -, rfl⟩ <;> rfl

/-- A step that begins a turn is that turn. -/
theorem StartsTurn.step_eq_turn {s s1 : State} (h : StartsTurn s s1) : step s = s1.turn := by
  rcases h with ⟨hev, rfl⟩ | ⟨p, rest, hev, hp, rfl⟩
  · simp only [step, hev]
  · simp only [step, hev, if_pos hp]

/-! ### What a fetch finds -/

theorem waiting_iff (s : State) :
    s.waiting = true ↔ s.regs.pc ∈ s.cfg.completionPoint ∧ (s.pe s.cur).pending ≠ [] := by
  simp [State.waiting]

theorem waiting_eq_false_iff (s : State) :
    s.waiting = false ↔ s.regs.pc ∉ s.cfg.completionPoint ∨ (s.pe s.cur).pending = [] := by
  rw [← Bool.not_eq_true, waiting_iff, Classical.not_and_iff_not_or_not, Classical.not_not]

/-- Bytes cannot be read where the first has no value or the others cannot be read. -/
theorem readBytes_succ_eq_none_iff (m : Memory) (a n : Nat) :
    Memory.readBytes m a (n + 1) = none ↔ m.read a = none ∨ Memory.readBytes m (a + 1) n = none := by
  rw [Memory.readBytes]
  cases m.read a with
  | none => simp
  | some b => cases Memory.readBytes m (a + 1) n <;> simp

/-- The address a fault names is one of those looked at, and has no value. -/
theorem firstUnwritten_spec {m : Memory} {a n : Nat} (h : Memory.readBytes m a (n + 1) = none) :
    a ≤ firstUnwritten m a n ∧ firstUnwritten m a n < a + (n + 1) ∧ m.read (firstUnwritten m a n) = none := by
  induction n generalizing a with
  | zero =>
    rcases (readBytes_succ_eq_none_iff m a 0).mp h with hread | hrest
    · exact ⟨Nat.le_refl a, Nat.lt_succ_self a, hread⟩
    · cases hrest
  | succ n ih =>
    cases hread : m.read a with
    | none => simp [firstUnwritten, hread]
    | some b =>
      have hnext : firstUnwritten m a (n + 1) = firstUnwritten m (a + 1) n := by simp [firstUnwritten, hread]
      have hrest : Memory.readBytes m (a + 1) (n + 1) = none :=
        ((readBytes_succ_eq_none_iff m a (n + 1)).mp h).resolve_left (by simp [hread])
      obtain ⟨hle, hlt, hnone⟩ := ih hrest
      rw [hnext]
      exact ⟨by omega, by omega, hnone⟩

section
variable {s : State} (hwait : s.waiting = false)
include hwait

theorem fetch_misaligned (hpc : s.regs.pc.toNat % 4 ≠ 0) : s.fetch = .refused (.misalignedPc s.regs.pc) := by
  have halign : aligned4 s.regs.pc = false := by rwa [← Bool.not_eq_true, aligned4_iff]
  simp [State.fetch, hwait, halign]

variable (hpc : s.regs.pc.toNat % 4 = 0)
include hpc

theorem fetch_unwritten (hbytes : Memory.readBytes s.mem s.regs.pc.toNat 4 = none) :
    s.fetch = .fault (.unwrittenMemory (firstUnwritten s.mem s.regs.pc.toNat 3)) := by
  have halign : aligned4 s.regs.pc = true := (aligned4_iff _).mpr hpc
  simp [State.fetch, hwait, halign, hbytes]

theorem fetch_decoded {bs : List Byte} {i : Instr} (hbytes : Memory.readBytes s.mem s.regs.pc.toNat 4 = some bs)
    (hdecode : decodeBytes bs = .ok i) : s.fetch = .instr i := by
  have halign : aligned4 s.regs.pc = true := (aligned4_iff _).mpr hpc
  simp [State.fetch, hwait, halign, hbytes, hdecode]

theorem fetch_rejected {bs : List Byte} {r : DecodeReject}
    (hbytes : Memory.readBytes s.mem s.regs.pc.toNat 4 = some bs) (hdecode : decodeBytes bs = .error r) :
    s.fetch = .refused (.outsideSpec r) := by
  have halign : aligned4 s.regs.pc = true := (aligned4_iff _).mpr hpc
  simp [State.fetch, hwait, halign, hbytes, hdecode]

end

/-! ### The obligations about a turn -/

/-- Settles O5: the step is the turn, and its fetch finds the instruction. -/
theorem stepRunsTheDecodedInstruction : Obligations.StepRunsTheDecodedInstruction := by
  intro s s1 i bs hstart hgo hpc hbytes hdecode
  have hstart : StartsTurn s s1 := hstart
  rw [← hstart.cfg] at hgo
  rw [← hstart.mem] at hbytes
  have hfetch : s1.fetch = .instr i := fetch_decoded ((waiting_eq_false_iff s1).mpr hgo) hpc hbytes hdecode
  rw [hstart.step_eq_turn, State.turn, hfetch]

/-- Settles O6: the step is the turn, and its fetch ends in one of the other four ways. -/
theorem turnsThatDoNotExecute : Obligations.TurnsThatDoNotExecute := by
  intro s s1 hstart
  have hstart : StartsTurn s s1 := hstart
  rw [hstart.step_eq_turn, ← hstart.cfg, ← hstart.mem, State.turn]
  refine ⟨fun hpoint hpending => ?_, fun hgo => ?_⟩
  · rw [(fetch_eq_wait_iff s1).mpr ((waiting_iff s1).mpr ⟨hpoint, hpending⟩)]
  · have hwait : s1.waiting = false := (waiting_eq_false_iff s1).mpr hgo
    refine ⟨fun hpc => ?_, fun hpc hbytes => ?_, fun bs r hpc hbytes hdecode => ?_⟩
    · rw [fetch_misaligned hwait hpc]
    · obtain ⟨hle, hlt, hnone⟩ := firstUnwritten_spec hbytes
      exact ⟨_, hle, hlt, hnone, by rw [fetch_unwritten hwait hpc hbytes]⟩
    · rw [fetch_rejected hwait hpc hbytes hdecode]

/-- At most one PE has the next turn. -/
theorem TurnOf.unique {s : State} {p q : Nat} (hp : TurnOf s p) (hq : TurnOf s q) : p = q := by
  rcases hp with ⟨hnil, rfl⟩ | ⟨rest, hev⟩ <;> rcases hq with ⟨hnil', rfl⟩ | ⟨rest', hev'⟩
  · rfl
  · rw [hnil] at hev'; cases hev'
  · rw [hnil'] at hev; cases hev
  · rw [hev] at hev'; cases hev'; rfl

/-- Settles O41: the registers change only where the fetch found an instruction, and it finds none for a PE that waits. -/
theorem completionPointWaitsForCompletion : Obligations.CompletionPointWaitsForCompletion := by
  intro s t p h hturn hpoint hne
  cases stepNext_of_step h with
  | idle cur rest _ => exact absurd rfl hne
  | exec q rest i t hturn' _ hfetch _ =>
    obtain rfl : p = q := hturn.unique hturn'
    obtain ⟨hwait, -, -⟩ := fetch_eq_instr hfetch
    exact ((waiting_eq_false_iff _).mp hwait).resolve_left (not_not_intro hpoint)
  | move ev rest hev =>
    rcases hturn with ⟨hnil, -⟩ | ⟨rest', hev'⟩
    · rw [hnil] at hev; cases hev
    · rw [hev] at hev'
      cases hev'
      exact absurd rfl hne

end Sys2Proof.Machine

/-! PROOFS. The record and the memory: both variants invalidate the same, and neither reads memory (40_tlbi_vale1is.md
R73, R82, 20_memory.md R37). -/

namespace Sys2Proof.Machine

/-! ### The field `attr` of a record -/

/-- The scope of an operation does not depend on its `attr`. -/
theorem scope_attr (cfg : Config) (op : TlbiOp) (attr : XsAttr) :
    scope cfg { op with attr := attr } = scope cfg op := rfl

/-- Which entries an operation requires to go does not depend on its `attr`: that is read by `waitsFor` alone. -/
theorem required_attr (cfg : Config) (op : TlbiOp) (attr : XsAttr) (a : AgentId) (e : TlbEntry) :
    required cfg { op with attr := attr } a e = required cfg op a e := rfl

/-- A Security state gives both values of `attr` their record, the two alike otherwise. -/
theorem issueTlbi_both (s : State) (t : Nat) (h : ¬NoSecurityState s.cfg s.regs) :
    ∃ op, op.attr = .allAttr ∧ s.issueTlbi .allAttr t = .next (s.addOp op)
      ∧ s.issueTlbi .excludeXS t = .next (s.addOp { op with attr := .excludeXS }) := by
  obtain ⟨sec, hsec, hall⟩ := issueTlbi_next s .allAttr t h
  refine ⟨s.tlbiOp sec .allAttr t, rfl, hall, ?_⟩
  rw [State.issueTlbi, hsec]
  rfl

/-- Settles O22: at each level where both run, each is an `issueTlbi` with its own `attr`. -/
theorem bothVariantsSameInvalidation : Obligations.BothVariantsSameInvalidation := by
  intro t s hxs hsec hruns
  obtain ⟨op, hattr, hall, hexclude⟩ := issueTlbi_both s t hsec
  obtain ⟨hplain, hnxs⟩ : exec (.tlbiVale1is t) s = s.issueTlbi .allAttr t
      ∧ exec (.tlbiVale1isnxs t) s = s.issueTlbi .excludeXS t := by
    rcases hruns with hel | hel | ⟨hel, hnoTrap, hnoNxsTrap, hfnxs⟩
    · exact ⟨exec_vale1is_high t (.inl hel), exec_nxs_high t hxs (.inl hel)⟩
    · exact ⟨exec_vale1is_high t (.inr hel), exec_nxs_high t hxs (.inr hel)⟩
    · have hover : ¬fnxsOverride s.cfg s.regs = true := by
        rw [fnxsOverride_iff]
        rintro ⟨-, -, hon⟩
        exact hfnxs hon
      exact ⟨by rw [exec_vale1is_el1 t hel hnoTrap, if_neg hover], exec_nxs_el1 t hxs hel hnoNxsTrap⟩
  exact ⟨op, hattr, hplain.trans hall, hnxs.trans hexclude, scope_attr _ _ _, fun _ _ => required_attr _ _ _ _ _⟩

/-! ### Another memory -/

/-- The machine on another memory. -/
def State.withMem (s : State) (m : Memory) : State := { s with mem := m }

/-- An outcome with another memory in its next state. -/
def outcomeWithMem (m : Memory) : Host.Outcome State Fault Refusal → Host.Outcome State Fault Refusal
  | .next u => .next (u.withMem m)
  | .fault f => .fault f
  | .refused r => .refused r

/-- Carrying out a choice keeps the memory it is given and does not read it. -/
theorem perform_withMem (s : State) (m : Memory) (i : Instr) (a : Action) :
    (s.withMem m).perform i a = outcomeWithMem m (s.perform i a) := by
  cases a with
  | undefined => rfl
  | trap => rfl
  | issue attr =>
    have hsec : securityState (s.withMem m).cfg (s.withMem m).regs = securityState s.cfg s.regs := rfl
    rw [State.perform, State.perform, State.issueTlbi, State.issueTlbi, hsec]
    cases securityState s.cfg s.regs with
    | none => rfl
    | some sec => rfl

/-- An instruction's choice is made by the configuration and the registers, so it too is the same on another memory. -/
theorem exec_withMem (i : Instr) (s : State) (m : Memory) : exec i (s.withMem m) = outcomeWithMem m (exec i s) := by
  rw [exec_eq_perform, exec_eq_perform, ← perform_withMem]
  rfl

/-- Settles O23: an instruction's outcome on another memory is its outcome, with that memory. -/
theorem instructionsReadNoMemory : Obligations.InstructionsReadNoMemory := by
  intro i s m
  have hexec : exec i { s with mem := m } = outcomeWithMem m (exec i s) := exec_withMem i s m
  refine ⟨fun u hu => ?_, fun r hr => ?_⟩
  · rw [hexec, hu]; rfl
  · rw [hexec, hr]; rfl

end Sys2Proof.Machine

/-! PROOFS. What each condition on an entry says, and what their conjunction requires of whom (40_tlbi_vale1is.md R74 to
R80, 20_memory.md R51, R52). -/

namespace Sys2Proof.Machine

/-! ### Each condition, as a proposition over the fields -/

theorem noteApplies_iff (cfg : Config) (op : TlbiOp) :
    noteApplies cfg op = true ↔ cfg.secureEL2Note = true ∧ op.security = .secure ∧ op.regime = .el10 := by
  simp only [noteApplies, Bool.and_eq_true, beq_iff_eq, and_assoc]

/-- `TTL[3:2]` is the quotient of the field by 4. -/
theorem ttl_granule_eq_zero_iff (ttl : BitVec 4) : ttl.extractLsb' 2 2 = 0 ↔ ttl.toNat / 4 = 0 := by
  have hlt := ttl.isLt
  rw [← BitVec.toNat_inj, BitVec.extractLsb'_toNat, Nat.shiftRight_eq_div_pow]
  change ttl.toNat / 4 % 4 = 0 ↔ ttl.toNat / 4 = 0
  omega

theorem sizeOK_iff (cfg : Config) (e : TlbEntry) (op : TlbiOp) :
    sizeOK cfg e op = true
      ↔ e.stage1 = true ∧ (e.d128 = false ∨ (cfg.featD128 = true ∧ op.ttl.toNat / 4 = 0)) := by
  simp only [sizeOK, Bool.and_eq_true, Bool.or_eq_true, Bool.not_eq_true', beq_iff_eq, ttl_granule_eq_zero_iff]

theorem leafAsid_iff (e : TlbEntry) (op : TlbiOp) :
    leafAsid e op = true ↔ e.final = true ∧ (e.nG = false ∨ e.asid = op.asid) := by
  simp only [leafAsid, Bool.and_eq_true, Bool.or_eq_true, Bool.not_eq_true', beq_iff_eq]

/-- For EL1&0 with a VMID argument only that VMID's entries match. -/
theorem vmidOK_some {cfg : Config} {e : TlbEntry} {op : TlbiOp} {v : BitVec 16} (a : AgentId)
    (hregime : op.regime ≠ .el20) (hv : op.vmid = some v) : vmidOK cfg e op a = true ↔ e.vmid = v := by
  simp only [vmidOK, if_neg hregime, hv, beq_iff_eq]

/-- Without a VMID argument a PE compares none. -/
theorem vmidOK_none_pe {cfg : Config} {e : TlbEntry} {op : TlbiOp} (n : Nat) (hv : op.vmid = none) :
    vmidOK cfg e op (.pe n) = true := by
  simp only [vmidOK, hv, ite_self]

/-- Without a VMID argument a System MMU compares VMID 0, under the Note. -/
theorem vmidOK_none_smmu {cfg : Config} {e : TlbEntry} {op : TlbiOp} (n : Nat) (hregime : op.regime ≠ .el20)
    (hv : op.vmid = none) : vmidOK cfg e op (.smmu n) = true ↔ ¬noteApplies cfg op = true ∨ e.vmid = 0 := by
  simp only [vmidOK, if_neg hregime, hv]
  cases noteApplies cfg op <;> simp

theorem vmidOK_iff (cfg : Config) (e : TlbEntry) (op : TlbiOp) (a : AgentId) :
    vmidOK cfg e op a = true
      ↔ op.regime = .el20 ∨ (∃ v, op.vmid = some v ∧ e.vmid = v)
        ∨ (op.vmid = none ∧ ((∃ n, a = .pe n) ∨ ¬noteApplies cfg op = true ∨ e.vmid = 0)) := by
  by_cases hregime : op.regime = .el20
  · simp [vmidOK, hregime]
  · cases hv : op.vmid with
    | some v => rw [vmidOK_some a hregime hv]; simp [hregime, eq_comm (a := v)]
    | none =>
      cases a with
      | pe n => simp [vmidOK_none_pe n hv]
      | smmu n => rw [vmidOK_none_smmu n hregime hv]; simp [hregime]

theorem context_iff (cfg : Config) (e : TlbEntry) (op : TlbiOp) (a : AgentId) :
    context cfg e op a = true ↔ e.security = op.security ∧ e.regime = op.regime ∧ vmidOK cfg e op a = true := by
  simp only [context, Bool.and_eq_true, beq_iff_eq, and_assoc]

theorem levelOK_iff (cfg : Config) (e : TlbEntry) (op : TlbiOp) :
    levelOK cfg e op = true
      ↔ (cfg.featTTL = false ∧ op.ttl = 0)
        ∨ (cfg.featTTL = true ∧ (ttlInfo cfg.featLPA2 op.ttl = none
            ∨ ttlInfo cfg.featLPA2 op.ttl = some (e.granule, e.level))) := by
  unfold levelOK info
  cases cfg.featTTL with
  | false =>
    by_cases httl : op.ttl = 0
    · simp [httl]
    · simp only [Bool.false_eq_true, if_false, httl, and_false, false_and, or_self]
  | true =>
    cases ttlInfo cfg.featLPA2 op.ttl with
    | none => simp
    | some gl =>
      obtain ⟨g, l⟩ := gl
      simp [eq_comm (a := g), eq_comm (a := l)]

/-- The Note excuses no System MMU. -/
@[simp] theorem agentOK_smmu (cfg : Config) (n : Nat) (op : TlbiOp) : agentOK cfg (.smmu n) op = true := by
  simp only [agentOK, ite_self]

/-- The Note does not excuse the issuer. -/
@[simp] theorem agentOK_issuer (cfg : Config) (op : TlbiOp) : agentOK cfg (.pe op.issuer) op = true := by
  simp only [agentOK, if_true, ite_self]

/-- Under the Note another PE has to act where its `EEL2` was the issuer's. -/
theorem agentOK_pe {cfg : Config} {op : TlbiOp} {n : Nat} (hnote : noteApplies cfg op = true)
    (hel3 : cfg.haveEL3 = true) (hn : n ≠ op.issuer) :
    agentOK cfg (.pe n) op = true ↔ op.peEel2.getD n false = op.eel2 := by
  simp only [agentOK, hnote, hel3, Bool.and_self, if_true, if_neg hn, beq_iff_eq]

theorem agentOK_iff (cfg : Config) (a : AgentId) (op : TlbiOp) :
    agentOK cfg a op = true
      ↔ ¬noteApplies cfg op = true ∨ cfg.haveEL3 = false ∨ (∃ n, a = .smmu n) ∨ a = .pe op.issuer
        ∨ (∃ n, a = .pe n ∧ op.peEel2.getD n false = op.eel2) := by
  by_cases hnote : noteApplies cfg op = true
  · cases hel3 : cfg.haveEL3 with
    | false => simp [agentOK, hel3]
    | true =>
      cases a with
      | smmu n => simp
      | pe n =>
        by_cases hn : n = op.issuer
        · simp [hn]
        · rw [agentOK_pe hnote hel3 hn]; simp [hnote, hn]
  · simp [agentOK, hnote]

/-- An entry is required to go exactly where all six conditions hold (90_conflicts.md C6). -/
theorem required_iff (cfg : Config) (op : TlbiOp) (a : AgentId) (e : TlbEntry) :
    required cfg op a e = true
      ↔ sizeOK cfg e op = true ∧ covers e op = true ∧ leafAsid e op = true ∧ context cfg e op a = true
        ∧ levelOK cfg e op = true ∧ agentOK cfg a op = true := by
  simp only [required, Bool.and_eq_true, and_assoc]

/-- Settles O26: each of the six conditions is its proposition over the fields. -/
theorem requiredIsAllItsConditions : Obligations.RequiredIsAllItsConditions := by
  intro cfg op a e note
  rw [required_iff, sizeOK_iff, covers_iff, leafAsid_iff, context_iff, vmidOK_iff, levelOK_iff, agentOK_iff,
    noteApplies_iff]

/-! ### The Note -/

theorem required_eq_false_of_vmidOK {cfg : Config} {op : TlbiOp} {a : AgentId} {e : TlbEntry}
    (h : ¬vmidOK cfg e op a = true) : required cfg op a e = false := by
  rw [← Bool.not_eq_true, required_iff, context_iff]
  rintro ⟨-, -, -, ⟨-, -, hvmid⟩, -⟩
  exact h hvmid

theorem required_eq_false_of_agentOK {cfg : Config} {op : TlbiOp} {a : AgentId} {e : TlbEntry}
    (h : ¬agentOK cfg a op = true) : required cfg op a e = false := by
  rw [← Bool.not_eq_true, required_iff]
  rintro ⟨-, -, -, -, -, hagent⟩
  exact h hagent

/-- What an agent must drop depends on the agent only by the VMID condition and by the Note's excuse. -/
theorem required_agent_congr {cfg : Config} {op : TlbiOp} {a b : AgentId} {e : TlbEntry}
    (hvmid : vmidOK cfg e op a = vmidOK cfg e op b) (hagent : agentOK cfg a op = agentOK cfg b op) :
    required cfg op a e = required cfg op b e := by
  simp only [required, context, hvmid, hagent]

/-- A System MMU's duty does not depend on any `EEL2`: that is read by the Note's excuse alone. -/
theorem required_smmu_eel2 (cfg : Config) (op : TlbiOp) (e : TlbEntry) (n : Nat) (b : Bool) (l : List Bool) :
    required cfg { op with eel2 := b, peEel2 := l } (.smmu n) e = required cfg op (.smmu n) e := by
  rw [required, required, agentOK_smmu, agentOK_smmu]
  rfl

/-- Settles O33: a PE is excused by `AgentOK`, and what a System MMU need not drop it keeps by `VmidOK`. -/
theorem secureEl2NoteExcuses : Obligations.SecureEl2NoteExcuses := by
  intro cfg op e hfeature hsecure hregime
  have hnote : noteApplies cfg op = true := (noteApplies_iff cfg op).mpr ⟨hfeature, hsecure, hregime⟩
  have hel10 : op.regime ≠ .el20 := by rw [hregime]; decide
  refine ⟨fun n hel3 hn heel2 => ?_, required_smmu_eel2 cfg op e, fun n hnone hvmid => ?_, fun n hnone hvmid => ?_,
    fun n v hv hvmid => ?_⟩
  · exact required_eq_false_of_agentOK (mt (agentOK_pe hnote hel3 hn).mp heel2)
  · refine required_eq_false_of_vmidOK fun hok => ?_
    rcases (vmidOK_none_smmu n hel10 hnone).mp hok with hno | hzero
    · exact hno hnote
    · exact hvmid hzero
  · refine required_agent_congr ?_ (by rw [agentOK_smmu, agentOK_issuer])
    rw [vmidOK_none_pe op.issuer hnone, (vmidOK_none_smmu n hel10 hnone).mpr (.inr hvmid)]
  · exact required_eq_false_of_vmidOK (mt (vmidOK_some (.smmu n) hel10 hv).mp hvmid)

/-! ### The scope -/

theorem inIsh_iff (cfg : Config) (p : Nat) (a : AgentId) :
    cfg.inIsh p a = true ↔ a = .pe p ∨ a ∈ (cfg.pes.getD p default).ish := by
  simp only [Config.inIsh, Bool.or_eq_true, beq_iff_eq, List.contains_iff_mem]

theorem mem_scope_iff (cfg : Config) (op : TlbiOp) (a : AgentId) :
    a ∈ scope cfg op ↔ cfg.hasAgent a = true ∧ (a = .pe op.issuer ∨ a ∈ (cfg.pes.getD op.issuer default).ish) := by
  rw [mem_scope, mem_agents, inIsh_iff]

/-- Completion depends on the configuration and on the agents in scope. -/
theorem canComplete_congr {s t : State} {op : TlbiOp} (hcfg : t.cfg = s.cfg)
    (hmmu : ∀ a ∈ scope s.cfg op, t.mmu a = s.mmu a) : t.canComplete op = s.canComplete op := by
  rw [Bool.eq_iff_iff, canComplete_iff, canComplete_iff, hcfg]
  exact forall₂_congr fun a ha => nothingLeft_congr hcfg (hmmu a ha)

/-- Settles O32, by the members of the scope and the completion condition over them. -/
theorem scopeIsTheInnerShareableDomain : Obligations.ScopeIsTheInnerShareableDomain := by
  refine ⟨fun cfg op hissuer => ?_, mem_scope_iff, fun s op a e ha he hreq => ?_,
    fun s s2 op hcfg hmmu => canComplete_congr hcfg hmmu⟩
  · exact (mem_scope_iff cfg op _).mpr ⟨decide_eq_true hissuer, .inl rfl⟩
  · rw [← Bool.not_eq_true, canComplete_iff]
    intro hleft
    obtain ⟨htlb, -⟩ := hleft a ha
    rw [htlb e he] at hreq
    cases hreq

end Sys2Proof.Machine

/-! PROOFS. Completion: what `AllAttr` and `ExcludeXS` make of it, what the moves of an operation do, and moves that bring
a pending operation to completion (20_memory.md R47, R48, 40_tlbi_vale1is.md R79; the moves are the model's form, log 26,
the condition the spec's decision D7, log 28). -/

namespace Sys2Proof.Machine

/-! ### `AllAttr`, `ExcludeXS` and completion -/

/-- What `AllAttr` waits for includes what `ExcludeXS` waits for. -/
theorem NothingLeft.excludeXS {s : State} {op : TlbiOp} {a : AgentId}
    (h : NothingLeft s { op with attr := .allAttr } a) : NothingLeft s { op with attr := .excludeXS } a := by
  obtain ⟨htlb, hflight⟩ := h
  exact ⟨htlb, fun m hm _ => hflight m hm (.inl rfl)⟩

/-- Where no access in flight has XS = 1, `ExcludeXS` waits for all that `AllAttr` does. -/
theorem NothingLeft.allAttr {s : State} {op : TlbiOp} {a : AgentId}
    (h : NothingLeft s { op with attr := .excludeXS } a) (hxs : ∀ m ∈ (s.mmu a).inflight, m.xs = false) :
    NothingLeft s { op with attr := .allAttr } a := by
  obtain ⟨htlb, hflight⟩ := h
  exact ⟨htlb, fun m hm _ => hflight m hm (.inr (hxs m hm))⟩

/-- Completion by agent, in the scope that does not depend on `attr`. -/
theorem canComplete_attr_iff (s : State) (op : TlbiOp) (attr : XsAttr) :
    s.canComplete { op with attr := attr } = true
      ↔ ∀ a ∈ scope s.cfg op, NothingLeft s { op with attr := attr } a :=
  canComplete_iff s _

theorem canComplete_excludeXS {s : State} {op : TlbiOp} (h : s.canComplete { op with attr := .allAttr } = true) :
    s.canComplete { op with attr := .excludeXS } = true :=
  (canComplete_attr_iff s op _).mpr fun a ha => ((canComplete_attr_iff s op _).mp h a ha).excludeXS

theorem canComplete_allAttr {s : State} {op : TlbiOp} (h : s.canComplete { op with attr := .excludeXS } = true)
    (hxs : ∀ a ∈ scope s.cfg op, ∀ m ∈ (s.mmu a).inflight, m.xs = false) :
    s.canComplete { op with attr := .allAttr } = true :=
  (canComplete_attr_iff s op _).mpr fun a ha => ((canComplete_attr_iff s op _).mp h a ha).allAttr (hxs a ha)

/-- An entry for page 1 of the Non-secure EL1&0 regime, global. -/
def xsEntry : TlbEntry where
  stage1 := true
  d128 := false
  final := true
  nG := false
  asid := 0
  security := .nonSecure
  regime := .el10
  vmid := 0
  granule := .g4K
  level := 3
  log2size := 12
  vaBase := 0x1000
  payload := 0

/-- An operation of PE 0 that requires `xsEntry` to go. -/
def xsOp : TlbiOp where
  issuer := 0
  security := .nonSecure
  regime := .el10
  vmid := none
  level := .last
  attr := .allAttr
  asid := 0
  ttl := 0
  vapg := 1
  eel2 := false
  peEel2 := [false]

/-- The one PE of `Config.atReset`, its TLB empty, with an access in flight that has XS = 1 and uses `xsEntry`. -/
def xsState : State where
  cfg := Config.atReset
  mem := []
  pes := [⟨PeRegs.atReset Config.atReset, ⟨[], [⟨true, [xsEntry]⟩]⟩, [], none⟩]
  smmus := []
  cur := 0
  events := []
  freeCount := 0

/-- Settles O34, agent by agent; an access that has XS = 1 separates the two. -/
theorem excludeXsCompletesNoLater : Obligations.ExcludeXsCompletesNoLater := by
  refine ⟨fun s op h => canComplete_excludeXS h, ⟨xsState, xsOp, by decide, by decide⟩, fun s op hxs => ?_⟩
  rw [Bool.eq_iff_iff]
  exact ⟨fun h => canComplete_allAttr h hxs, canComplete_excludeXS⟩

/-! ### The moves of an operation -/

theorem step_invalidate {s : State} {a : AgentId} {p : Nat} {op : TlbiOp} {rest : List Event}
    (hev : s.events = .invalidate a p op :: rest) (hop : op ∈ (s.pe p).pending) (ha : a ∈ scope s.cfg op) :
    step s = .next (State.setMmu { s with events := rest } a
      { s.mmu a with tlb := (s.mmu a).tlb.filter (fun e => !required s.cfg op a e) }) := by
  simp only [step, hev, State.environment, State.envInvalidate, pe_events, mmu_events, hop, ha, and_self, if_true]

theorem step_complete {s : State} {p : Nat} {op : TlbiOp} {rest : List Event}
    (hev : s.events = .complete p op :: rest) (hleft : ∀ a ∈ scope s.cfg op, NothingLeft s op a) :
    step s = .next (State.setPe { s with events := rest } p
      { s.pe p with pending := (s.pe p).pending.erase op }) := by
  have hcan : State.canComplete { s with events := rest } op = true :=
    (canComplete_congr rfl fun a _ => mmu_events s rest a).trans ((canComplete_iff s op).mpr hleft)
  simp only [step, hev, State.environment, State.envComplete, pe_events, hcan, if_true]

theorem mem_filter_required {cfg : Config} {op : TlbiOp} {a : AgentId} {e : TlbEntry} {tlb : List TlbEntry} :
    e ∈ tlb.filter (fun e => !required cfg op a e) ↔ e ∈ tlb ∧ required cfg op a e = false := by
  rw [List.mem_filter, Bool.not_eq_true']

/-- An existing agent of the scope that acts on a pending operation keeps the entries not required, and nothing else of the
machine changes. -/
theorem step_invalidate_keeps {s : State} {a : AgentId} {p : Nat} {op : TlbiOp} {rest : List Event}
    (hev : s.events = .invalidate a p op :: rest) (hop : op ∈ (s.pe p).pending) (ha : a ∈ scope s.cfg op)
    (hagent : s.hasAgent a) :
    ∃ t, step s = .next t ∧ (∀ e, e ∈ (t.mmu a).tlb ↔ e ∈ (s.mmu a).tlb ∧ required s.cfg op a e = false)
      ∧ (t.mmu a).inflight = (s.mmu a).inflight ∧ SameButMmu s t a := by
  obtain ⟨t, hstep, hmmu, hsame⟩ := step_setMmu hev hagent (step_invalidate hev hop ha)
  exact ⟨t, hstep, fun e => by rw [hmmu, mem_filter_required], by rw [hmmu], hsame⟩

/-- An operation with nothing left in its scope completes: its record goes, with every agent's TLB and accesses and every
PE's registers kept. -/
theorem step_complete_ends {s : State} {p : Nat} {op : TlbiOp} {rest : List Event}
    (hev : s.events = .complete p op :: rest) (hp : p < s.pes.length) (hnodup : (s.pe p).pending.Nodup)
    (hleft : ∀ a ∈ scope s.cfg op, NothingLeft s op a) :
    ∃ t, step s = .next t ∧ (∀ o, o ∈ (t.pe p).pending ↔ o ∈ (s.pe p).pending ∧ o ≠ op)
      ∧ (∀ b, t.mmu b = s.mmu b) ∧ (∀ q, (t.pe q).regs = (s.pe q).regs) := by
  refine ⟨_, step_complete hev hleft, fun o => ?_, fun b => ?_, fun q => regs_setPe_of_regs_eq (by rfl) q⟩
  · rw [pe_setPe_self { s with events := rest } p _ hp, hnodup.mem_erase_iff, and_comm]
  · exact (mmu_setPe_of_mmu_eq _ p _ (by rfl) b).trans (mmu_events s rest b)

/-- Settles O35, by what each of the two moves leaves. -/
theorem invalidateAndCompleteMoves : Obligations.InvalidateAndCompleteMoves := by
  refine ⟨fun s a p op rest hev hop ha hagent => ?_, fun s p op rest => step_complete_ends⟩
  obtain ⟨t, hstep, htlb, hflight, -, -, -, -, hpes, hothers, -⟩ := step_invalidate_keeps hev hop ha hagent
  refine ⟨t, hstep, htlb, hflight, hothers, fun q => ?_⟩
  obtain ⟨hregs, hpending, -⟩ := hpes q
  exact ⟨hregs, hpending⟩

/-! ### A run that ends an operation -/

theorem core_run_succ {M : Host.Core} {s t : M.State} (h : M.step s = .next t) (k : Nat) :
    M.run (k + 1) s = M.run k t := by
  rw [Host.Core.run, h]

theorem run_succ_of_step {s t : State} (h : step s = .next t) (k : Nat) :
    Host.Core.run Sys2Proof.core (k + 1) s = Host.Core.run Sys2Proof.core k t :=
  core_run_succ (M := Sys2Proof.core) h k

/-- Under the invariant the agents of a scope exist. -/
theorem State.Inv.hasAgent_of_mem_scope {s : State} (h : s.Inv) {op : TlbiOp} {a : AgentId}
    (ha : a ∈ scope s.cfg op) : s.hasAgent a := by
  obtain ⟨hconfig, -⟩ := (mem_scope_iff s.cfg op a).mp ha
  cases a with
  | pe n =>
    have hn : n < s.cfg.pes.length := of_decide_eq_true hconfig
    rwa [← h.peCount] at hn
  | smmu n =>
    have hn : n < s.cfg.smmuCount := of_decide_eq_true hconfig
    rwa [← h.smmuCount] at hn

theorem lt_of_mem_pending {s : State} {p : Nat} {op : TlbiOp} (h : op ∈ (s.pe p).pending) : p < s.pes.length := by
  apply Nat.lt_of_not_le
  intro hle
  rw [pe_of_le s hle] at h
  cases h

/-- Between `s` and `t` the agents of `as` have acted on the pending operation `op` of PE `p`: none of them holds a
required entry, and no agent has gained an entry or changed its accesses. -/
structure ActedOn (p : Nat) (op : TlbiOp) (as : List AgentId) (s t : State) : Prop where
  cfg : t.cfg = s.cfg
  pending : (t.pe p).pending = (s.pe p).pending
  inflight : ∀ b, (t.mmu b).inflight = (s.mmu b).inflight
  tlbSub : ∀ b, ∀ e ∈ (t.mmu b).tlb, e ∈ (s.mmu b).tlb
  gone : ∀ a ∈ as, ∀ e ∈ (t.mmu a).tlb, required s.cfg op a e = false

theorem ActedOn.nil (p : Nat) (op : TlbiOp) (s : State) : ActedOn p op [] s s :=
  ⟨rfl, rfl, fun _ => rfl, fun _ _ he => he, fun _ ha => absurd ha List.not_mem_nil⟩

/-- One invalidation is the acting of one agent. -/
theorem ActedOn.single {p : Nat} {op : TlbiOp} {a : AgentId} {s t : State}
    (htlb : ∀ e, e ∈ (t.mmu a).tlb ↔ e ∈ (s.mmu a).tlb ∧ required s.cfg op a e = false)
    (hflight : (t.mmu a).inflight = (s.mmu a).inflight) (hsame : SameButMmu s t a) : ActedOn p op [a] s t := by
  obtain ⟨hcfg, -, -, -, hpes, hothers, -⟩ := hsame
  obtain ⟨-, hpending, -⟩ := hpes p
  refine ⟨hcfg, hpending, fun b => ?_, fun b e he => ?_, fun b hb e he => ?_⟩
  · by_cases hb : b = a
    · rw [hb, hflight]
    · rw [hothers b hb]
  · by_cases hb : b = a
    · rw [hb] at he ⊢
      exact ((htlb e).mp he).1
    · rwa [hothers b hb] at he
  · obtain rfl := List.mem_singleton.mp hb
    exact ((htlb e).mp he).2

/-- What has gone from an agent stays gone while others act. -/
theorem ActedOn.trans {p : Nat} {op : TlbiOp} {as bs : List AgentId} {s t u : State} (h : ActedOn p op as s t)
    (h' : ActedOn p op bs t u) : ActedOn p op (as ++ bs) s u where
  cfg := h'.cfg.trans h.cfg
  pending := h'.pending.trans h.pending
  inflight b := (h'.inflight b).trans (h.inflight b)
  tlbSub b e he := h.tlbSub b e (h'.tlbSub b e he)
  gone a ha e he := by
    rcases List.mem_append.mp ha with has | hbs
    · exact h.gone a has e (h'.tlbSub a e he)
    · exact h.cfg ▸ h'.gone a hbs e he

/-- The moves by which the agents of `as` act on the operation `op` of PE `p`, one after the other. -/
def invalidations (p : Nat) (op : TlbiOp) (as : List AgentId) : List Event :=
  as.map fun a => .invalidate a p op

@[simp] theorem length_invalidations (p : Nat) (op : TlbiOp) (as : List AgentId) :
    (invalidations p op as).length = as.length :=
  List.length_map _

/-- Agents of the scope that act one after the other have all acted, with the later moves still to come. -/
theorem run_invalidates {p : Nat} {op : TlbiOp} {rest : List Event} (as : List AgentId) {s : State} (hinv : s.Inv)
    (hop : op ∈ (s.pe p).pending) (has : ∀ a ∈ as, a ∈ scope s.cfg op)
    (hev : s.events = invalidations p op as ++ rest) :
    ∃ t : State, (∀ k, Host.Core.run Sys2Proof.core (as.length + k) s = Host.Core.run Sys2Proof.core k t)
      ∧ t.Inv ∧ t.events = rest ∧ ActedOn p op as s t := by
  induction as generalizing s with
  | nil => exact ⟨s, fun k => by rw [List.length_nil, Nat.zero_add], hinv, hev, .nil p op s⟩
  | cons a as ih =>
    have ha : a ∈ scope s.cfg op := has a List.mem_cons_self
    obtain ⟨t, hstep, htlb, hflight, hsame⟩ := step_invalidate_keeps hev hop ha (hinv.hasAgent_of_mem_scope ha)
    have hone : ActedOn p op [a] s t := .single htlb hflight hsame
    have hevents : t.events = invalidations p op as ++ rest := by
      obtain ⟨-, -, -, -, -, -, -, -, htail⟩ := hsame
      rw [htail, hev]
      rfl
    obtain ⟨u, hrun, hinv', hrest, hacted⟩ := ih (stepKeepsInvariant s t hinv hstep) (hone.pending ▸ hop)
      (fun b hb => hone.cfg ▸ has b (List.mem_cons_of_mem a hb)) hevents
    refine ⟨u, fun k => ?_, hinv', hrest, hone.trans hacted⟩
    rw [List.length_cons, Nat.add_right_comm, run_succ_of_step hstep, hrun]

/-- Once the whole scope has acted nothing is left, where no access in flight was waited for. -/
theorem ActedOn.nothingLeft {p : Nat} {op : TlbiOp} {s t : State} (h : ActedOn p op (scope s.cfg op) s t)
    (hwaits : ∀ a ∈ scope s.cfg op, ∀ m ∈ (s.mmu a).inflight, waitsFor s.cfg op a m = false) {a : AgentId}
    (ha : a ∈ scope s.cfg op) : NothingLeft t op a := by
  rw [← agentDone_iff, State.agentDone, h.cfg, h.inflight a]
  simp only [Bool.and_eq_true, List.all_eq_true, Bool.not_eq_true']
  exact ⟨h.gone a ha, hwaits a ha⟩

/-- Settles O43: every agent of the scope acts, and the operation completes. -/
theorem pendingOperationCanComplete : Obligations.PendingOperationCanComplete := by
  intro s p op hinv hop hwaits
  have hinv' : State.Inv { s with events := invalidations p op (scope s.cfg op) ++ [.complete p op] } :=
    hinv.bookkeeping hinv.curExists _ s.freeCount
  obtain ⟨t, hrun, htinv, hevents, hacted⟩ :=
    run_invalidates (rest := [.complete p op]) (scope s.cfg op) hinv' hop (fun _ ha => ha) rfl
  have hleft : ∀ a ∈ scope t.cfg op, NothingLeft t op a := fun a ha =>
    hacted.nothingLeft (fun b hb => by rw [mmu_events]; exact hwaits b hb) (hacted.cfg ▸ ha)
  have hpending : op ∈ (t.pe p).pending := hacted.pending.symm ▸ hop
  obtain ⟨u, hstep, hgone, hmmu, -⟩ :=
    step_complete_ends hevents (lt_of_mem_pending hpending) (htinv.pendingNodup p) hleft
  have hucfg : u.cfg = t.cfg := (step_sameCounts hstep).1
  have hended : op ∉ (u.pe p).pending := fun hu => ((hgone op).mp hu).2 rfl
  refine ⟨invalidations p op (scope s.cfg op) ++ [.complete p op], u, ?_, hended, fun a ha => ?_⟩
  · rw [List.length_append, length_invalidations, hrun, List.length_singleton, run_succ_of_step hstep]
    rfl
  · exact (nothingLeft_congr hucfg (hmmu a)).mpr (hleft a (hacted.cfg.symm ▸ ha))

end Sys2Proof.Machine

/-! PROOFS. The encoding: a word and its fields determine each other, so decoding is the inverse of encoding on words,
bytes and table rows (30_encoding.md R56 to R60, R70, R71; the word layout and the byte order are the model's, log 9,
log 10). -/

namespace Sys2Proof

/-! ### The tuple and the instruction -/

/-- A well-formed instruction is read back from its own tuple. -/
theorem decodeFields_fields {i : Instr} (h : i.wf = true) : decodeFields i.fields = .ok i := by
  cases i with
  | tlbiVale1is t => exact Laws.FieldsDecode.tlbiVale1is t h
  | tlbiVale1isnxs t => exact Laws.FieldsDecode.tlbiVale1isnxs t h

/-- A decoder answers where its first rejection does not apply and the rest of it answers. -/
theorem ite_error_eq_ok_iff {ε α : Type} {c : Prop} [Decidable c] {e : ε} {x : Except ε α} {a : α} :
    (if c then .error e else x) = .ok a ↔ ¬c ∧ x = .ok a := by
  by_cases hc : c
  · rw [if_pos hc]
    exact ⟨nofun, fun h => absurd hc h.1⟩
  · rw [if_neg hc, and_iff_right hc]

/-- What the tuple decoder reads is well-formed and has that very tuple. -/
theorem wf_and_fields_of_decodeFields {f : SysFields} {i : Instr} (h : decodeFields f = .ok i) :
    i.wf = true ∧ f = i.fields := by
  obtain ⟨op0, op1, crn, crm, op2, rt⟩ := f
  have hrt : rt.toNat < 32 := rt.isLt
  have hread : BitVec.ofNat 5 rt.toNat = rt := by rw [BitVec.ofNat_toNat, BitVec.setWidth_eq]
  simp only [decodeFields, ite_error_eq_ok_iff, ne_eq, Classical.not_not] at h
  obtain ⟨rfl, rfl, rfl, rfl, hcrn⟩ := h
  split at hcrn
  · next h8 =>
    subst h8
    cases hcrn
    exact ⟨decide_eq_true hrt, congrArg (SysFields.mk 0b01 0b000 0b1000 0b0011 0b101) hread.symm⟩
  · split at hcrn
    · next h9 =>
      subst h9
      cases hcrn
      exact ⟨decide_eq_true hrt, congrArg (SysFields.mk 0b01 0b000 0b1001 0b0011 0b101) hread.symm⟩
    · cases hcrn

/-- The tuple decoder is the inverse of `Instr.fields`. -/
theorem decodeFields_eq_ok_iff {f : SysFields} {i : Instr} :
    decodeFields f = .ok i ↔ i.wf = true ∧ f = i.fields := by
  constructor
  · exact wf_and_fields_of_decodeFields
  · rintro ⟨hwf, rfl⟩
    exact decodeFields_fields hwf

/-- The tuple decoder reads an instruction that carries the register number of the tuple. -/
theorem rt_of_decodeFields {f : SysFields} {i : Instr} (h : decodeFields f = .ok i) : i.rt = f.rt.toNat := by
  obtain ⟨hwf, rfl⟩ := wf_and_fields_of_decodeFields h
  have ht : i.rt < 32 := of_decide_eq_true hwf
  cases i <;> exact (Nat.mod_eq_of_lt ht).symm

/-- With the tuple's register number an instruction is read from its own tuple and from no other. -/
theorem decodeFields_eq_ok_iff_of_rt {f : SysFields} {i : Instr} (h : i.rt = f.rt.toNat) :
    decodeFields f = .ok i ↔ f = i.fields := by
  have hrt : i.rt < 32 := h.symm ▸ f.rt.isLt
  rw [decodeFields_eq_ok_iff, and_iff_right (show i.wf = true from decide_eq_true hrt)]

/-- Settles O1: each instruction has one tuple, and what is decoded carries the register number. -/
theorem decodeSelectsTheTwoTuples : Obligations.DecodeSelectsTheTwoTuples := by
  intro f
  refine ⟨?_, ?_, fun i h => ?_⟩
  · rw [decodeFields_eq_ok_iff_of_rt rfl]
    cases f
    simp [Instr.fields]
  · rw [decodeFields_eq_ok_iff_of_rt rfl]
    cases f
    simp [Instr.fields]
  · rw [← rt_of_decodeFields h]
    cases i with
    | tlbiVale1is t => exact .inl rfl
    | tlbiVale1isnxs t => exact .inr rfl

/-! ### The word and the tuple -/

/-- The tuple a word was made of is read back from it, and the word is one of a System instruction with `L = 0`. -/
theorem fields_of_wordOfFields (f : SysFields) :
    (wordOfFields f).extractLsb' 22 10 = sysOpcode ∧ (wordOfFields f).extractLsb' 21 1 = 0#1
      ∧ fieldsOfWord (wordOfFields f) = f := by
  simp (disch := decide) only [wordOfFields, fieldsOfWord, BitVec.extractLsb'_append_eq_of_le,
    BitVec.extractLsb'_append_eq_of_add_le]
  simp

/-- A word with the two fixed fields is made of its own tuple. -/
theorem wordOfFields_fieldsOfWord {w : Word} (hop : w.extractLsb' 22 10 = sysOpcode)
    (hL : w.extractLsb' 21 1 = 0#1) : wordOfFields (fieldsOfWord w) = w := by
  rw [wordOfFields, ← hop, ← hL]
  simp only [fieldsOfWord, BitVec.extractLsb'_append_extractLsb'_eq_extractLsb', BitVec.extractLsb'_eq_self]

/-- The word decoder is the inverse of `encode`. -/
theorem decodeWord_eq_ok_iff {w : Word} {i : Instr} :
    decodeWord w = .ok i ↔ i.wf = true ∧ encode i = w := by
  constructor
  · intro h
    simp only [decodeWord, ite_error_eq_ok_iff, ne_eq, Classical.not_not] at h
    obtain ⟨hop, hL, h⟩ := h
    obtain ⟨hwf, hfields⟩ := decodeFields_eq_ok_iff.mp h
    exact ⟨hwf, by rw [encode, ← hfields, wordOfFields_fieldsOfWord hop hL]⟩
  · rintro ⟨hwf, rfl⟩
    obtain ⟨hop, hL, hfields⟩ := fields_of_wordOfFields i.fields
    rw [decodeWord, encode, if_neg (not_not_intro hop), if_neg (not_not_intro hL), hfields, decodeFields_fields hwf]

/-! ### Bytes and table rows -/

/-- The four bytes of a word, put together, are the word. -/
theorem decodeBytes_bytesOfWord (w : Word) (rest : List Byte) : decodeBytes (bytesOfWord w ++ rest) = decodeWord w := by
  have hword : wordOfBytes (w.extractLsb' 0 8) (w.extractLsb' 8 8) (w.extractLsb' 16 8) (w.extractLsb' 24 8) = w := by
    simp only [wordOfBytes, BitVec.extractLsb'_append_extractLsb'_eq_extractLsb', BitVec.extractLsb'_eq_self]
  rw [bytesOfWord, List.cons_append, List.cons_append, List.cons_append, List.cons_append, decodeBytes, hword]

/-- A 32-bit row of the opcode table stands for its own word. -/
theorem tableWord_toNat (w : Word) : tableWord 32 w.toNat = w := by
  rw [tableWord, Nat.mod_eq_of_lt w.isLt, BitVec.ofNat_toNat, BitVec.setWidth_eq]

/-- A table row is read as the instruction its word decodes to. -/
theorem decodeTableWord_eq_some_iff {nbits w : Nat} {i : Instr} :
    decodeTableWord nbits w = some i ↔ decodeWord (tableWord nbits w) = .ok i := by
  have hbytes := decodeBytes_bytesOfWord (tableWord nbits w) []
  rw [List.append_nil] at hbytes
  rw [decodeTableWord, hbytes]
  cases decodeWord (tableWord nbits w) <;> simp

/-- Settles O2: the word decoder is the inverse of `encode`, and bytes and rows are read through the word. -/
theorem decodeOfEncodeIsTheInstruction : Obligations.DecodeOfEncodeIsTheInstruction := by
  intro i hwf
  have hword : decodeWord (encode i) = .ok i := decodeWord_eq_ok_iff.mpr ⟨hwf, rfl⟩
  exact ⟨hword, fun rest => (decodeBytes_bytesOfWord _ rest).trans hword,
    decodeTableWord_eq_some_iff.mpr ((tableWord_toNat (encode i)).symm ▸ hword)⟩

/-! ### The masks of the opcode table -/

/-- The mask keeps the 27 bits above `Rt`. -/
theorem and_tableMask (hi : BitVec 27) (lo : BitVec 5) : (hi ++ lo : Word) &&& 0xFFFFFFE0#32 = hi ++ 0#5 := by
  calc (hi ++ lo : Word) &&& 0xFFFFFFE0#32
    _ = (hi ++ lo) &&& (BitVec.allOnes 27 ++ 0#5) := rfl
    _ = hi ++ 0#5 := by rw [BitVec.and_append, BitVec.and_allOnes, BitVec.and_zero]

/-- A word whose bits under the mask are given is those bits with any five below. -/
theorem and_tableMask_eq_iff (w : Word) (hi : BitVec 27) :
    w &&& 0xFFFFFFE0#32 = hi ++ 0#5 ↔ ∃ lo : BitVec 5, hi ++ lo = w := by
  constructor
  · intro h
    have hsplit : w.extractLsb' 5 27 ++ w.extractLsb' 0 5 = w :=
      BitVec.extractLsb'_append_extractLsb' (w := 27) (len := 5)
    rw [← hsplit, and_tableMask, BitVec.append_left_inj] at h
    exact ⟨w.extractLsb' 0 5, h ▸ hsplit⟩
  · rintro ⟨lo, rfl⟩
    exact and_tableMask hi lo

/-- An instruction whose words are fixed bits above any `Rt` is read from exactly the words with those bits. -/
theorem exists_decodeWord_eq_ok_iff {mk : Nat → Instr} {hi : BitVec 27} (hrt : ∀ t, (mk t).rt = t)
    (henc : ∀ t, encode (mk t) = hi ++ BitVec.ofNat 5 t) (w : Word) :
    (∃ t, decodeWord w = .ok (mk t)) ↔ w &&& 0xFFFFFFE0#32 = hi ++ 0#5 := by
  simp only [and_tableMask_eq_iff, decodeWord_eq_ok_iff, henc]
  constructor
  · rintro ⟨t, -, hw⟩
    exact ⟨BitVec.ofNat 5 t, hw⟩
  · rintro ⟨lo, hw⟩
    have hlo : (mk lo.toNat).rt < 32 := (hrt lo.toNat).symm ▸ lo.isLt
    exact ⟨lo.toNat, decide_eq_true hlo, by rwa [BitVec.ofNat_toNat, BitVec.setWidth_eq]⟩

/-- `Rt` is the low end of a word. -/
theorem wordOfFields_eq_append_rt (f : SysFields) :
    wordOfFields f = (sysOpcode ++ 0#1 ++ f.op0 ++ f.op1 ++ f.crn ++ f.crm ++ f.op2) ++ f.rt := by
  simp only [wordOfFields, BitVec.append_assoc, BitVec.cast_eq]

/-- `TLBI VALE1IS`: the bits of `0xD50883A0` above `Rt`. -/
theorem encode_vale1is (t : Nat) : encode (.tlbiVale1is t) = 0x6A8441D#27 ++ BitVec.ofNat 5 t := by
  have hfixed : sysOpcode ++ 0#1 ++ 0b01#2 ++ 0b000#3 ++ 0b1000#4 ++ 0b0011#4 ++ 0b101#3 = 0x6A8441D#27 := by decide
  rw [encode, wordOfFields_eq_append_rt, ← hfixed]
  rfl

/-- `TLBI VALE1ISNXS`: the bits of `0xD50893A0` above `Rt`. -/
theorem encode_vale1isnxs (t : Nat) : encode (.tlbiVale1isnxs t) = 0x6A8449D#27 ++ BitVec.ofNat 5 t := by
  have hfixed : sysOpcode ++ 0#1 ++ 0b01#2 ++ 0b000#3 ++ 0b1001#4 ++ 0b0011#4 ++ 0b101#3 = 0x6A8449D#27 := by decide
  rw [encode, wordOfFields_eq_append_rt, ← hfixed]
  rfl

/-- Settles O3: the words of each instruction are the fixed bits of its table row above any `Rt`. -/
theorem decodeMatchesTheTableMasks : Obligations.DecodeMatchesTheTableMasks := by
  intro w
  exact ⟨exists_decodeWord_eq_ok_iff (fun _ => rfl) encode_vale1is w,
    exists_decodeWord_eq_ok_iff (fun _ => rfl) encode_vale1isnxs w, fun _ h => decodeWord_eq_ok_iff.mp h⟩

end Sys2Proof

/-! PROOFS. The placed word: what `withFetchWord` puts at the executing PE's `pc` is what the next step executes
(30_encoding.md R59, R71; the model's interface, log 35). -/

namespace Sys2Proof.Machine

/-- Rounding down clears the two low bits. -/
theorem toNat_alignDown4 (a : DWord) : (alignDown4 a).toNat = a.toNat / 4 * 4 := by
  have hlt := a.isLt
  calc (alignDown4 a).toNat
    _ = (a.extractLsb' 2 62).toNat <<< 2 ||| (0#2).toNat := BitVec.toNat_append _ _
    _ = a.toNat / 4 % 2 ^ 62 * 4 := by
      rw [BitVec.toNat_ofNat, Nat.zero_mod, Nat.or_zero, Nat.shiftLeft_eq, BitVec.extractLsb'_toNat,
        Nat.shiftRight_eq_div_pow]
    _ = a.toNat / 4 * 4 := by omega

/-- The state at the start of the turn that `placeWord` puts next: the moves to come are those of `s` again. -/
def State.placed (s : State) (w : Word) : State := { s.placeWord w with events := s.events }

theorem startsTurn_placed {s : State} (w : Word) (hcur : s.cur < s.pes.length) :
    StartsTurn (s.placeWord w) (s.placed w) :=
  .inr ⟨s.cur, s.events, rfl, by simpa [State.placeWord] using hcur, rfl⟩

theorem pe_placed_self {s : State} (w : Word) (hcur : s.cur < s.pes.length) :
    (s.placed w).pe s.cur = { s.pe s.cur with regs := { s.regs with pc := alignDown4 s.regs.pc } } :=
  pe_setPe_self s s.cur _ hcur

theorem pe_placed_ne {s : State} (w : Word) {q : Nat} (hq : q ≠ s.cur) : (s.placed w).pe q = s.pe q :=
  pe_setPe_ne s _ hq

theorem regs_placed {s : State} (w : Word) (hcur : s.cur < s.pes.length) :
    (s.placed w).regs = { s.regs with pc := alignDown4 s.regs.pc } :=
  congrArg Pe.regs (pe_placed_self w hcur)

theorem readBytes_placed (s : State) (w : Word) :
    Memory.readBytes (s.placed w).mem (alignDown4 s.regs.pc).toNat 4 = some (bytesOfWord w) :=
  Memory.readBytes_writeBytes s.mem (alignDown4 s.regs.pc).toNat (bytesOfWord w)

theorem read_placed_outside (s : State) (w : Word) {a : Nat}
    (ha : a < (alignDown4 s.regs.pc).toNat ∨ (alignDown4 s.regs.pc).toNat + 4 ≤ a) :
    Memory.read (s.placed w).mem a = Memory.read s.mem a := by
  cases ha with
  | inl hbelow => exact Memory.read_writeBytes_below s.mem _ hbelow
  | inr habove => exact Memory.read_writeBytes_above s.mem _ habove

/-- The placed word stands at no completion point, so the turn executes it. -/
theorem step_placeWord {s : State} {w : Word} {i : Instr} (hcur : s.cur < s.pes.length)
    (hdecode : decodeWord w = .ok i) : step (s.placeWord w) = exec i (s.placed w) := by
  have hpc : (s.placed w).regs.pc = alignDown4 s.regs.pc := by rw [regs_placed w hcur]
  have hbytes : decodeBytes (bytesOfWord w) = .ok i := by
    rw [← List.append_nil (bytesOfWord w), decodeBytes_bytesOfWord, hdecode]
  refine stepRunsTheDecodedInstruction (s.placeWord w) (s.placed w) i (bytesOfWord w) (startsTurn_placed w hcur)
    (.inl ?_) ?_ ?_ hbytes <;> rw [hpc]
  · show alignDown4 s.regs.pc ∉ s.cfg.completionPoint.filter (fun a => a != alignDown4 s.regs.pc)
    simp
  · rw [toNat_alignDown4, Nat.mul_mod_left]
  · exact readBytes_placed s w

/-- Settles O7: the next step begins the turn at the placed word, and the other fields are those of `s`. -/
theorem placedWordRunsNext : Obligations.PlacedWordRunsNext := by
  intro s nbits w i hcur hdecode
  have hword : decodeWord (tableWord nbits w) = .ok i := decodeTableWord_eq_some_iff.mp hdecode
  exact ⟨s.placed (tableWord nbits w), alignDown4 s.regs.pc, toNat_alignDown4 _, step_placeWord hcur hword,
    pe_placed_self _ hcur, readBytes_placed s _, fun _ hq => pe_placed_ne _ hq, List.length_set, rfl, rfl, rfl, rfl,
    fun _ ha => read_placed_outside s _ ha, rfl⟩

end Sys2Proof.Machine

/-! PROOFS. The operand: its three fields are all of its bits, and no value of it decides whether an instruction goes on
(30_encoding.md R61, R68, 60_exceptions.md R86). -/

namespace Sys2Proof.Machine

/-! ### The three fields -/

/-- The fields of an operand tile it. -/
theorem FieldsOf.tile {xt : DWord} {op : TlbiOp} (h : FieldsOf xt op) :
    op.asid.toNat * 2 ^ 48 + op.ttl.toNat * 2 ^ 44 + op.vapg.toNat = xt.toNat := by
  obtain ⟨hasid, httl, hvapg⟩ := h
  omega

/-- A record that an instruction newly makes pending is the one it builds from its operand. -/
theorem fieldsOf_new_pending {i : Instr} {s t : State} {op : TlbiOp} (h : exec i s = .next t)
    (hold : op ∉ (s.pe s.cur).pending) (hnew : op ∈ (t.pe s.cur).pending) : FieldsOf (s.regs.readX i.rt) op := by
  have ho := exec_outcome i s
  rw [h] at ho
  cases ho with
  | issue sec attr _ _ _ =>
    obtain ⟨-, -, rfl⟩ := (mem_pending_addOp.mp hnew).resolve_left hold
    exact fields_of_operand _ _ rfl rfl rfl
  | undefined => exact absurd (pending_raiseUndefined s s.cur ▸ hnew) hold
  | trap _ _ => exact absurd (pending_trapToEl2 s i s.cur ▸ hnew) hold

/-- Settles O12: a new record's fields are those of the operand, which they tile. -/
theorem operandFieldsTileTheRegister : Obligations.OperandFieldsTileTheRegister := by
  intro i s t op _ h hold hnew
  exact ⟨(fieldsOf_new_pending h hold hnew).tile, toNat_va56 op.vapg⟩

/-! ### Other general registers -/

/-- The PE with other general registers. -/
def Pe.withX (pe : Pe) (x : Vector DWord 31) : Pe := { pe with regs := { pe.regs with x := x } }

/-- The machine with other general registers in the executing PE. -/
def State.withX (s : State) (x : Vector DWord 31) : State := s.setPe s.cur ((s.pe s.cur).withX x)

/-- Two PEs stand at the same `pc`, PSTATE and exception outcome. -/
def SameFlow (pe pe' : Pe) : Prop :=
  pe'.regs.pc = pe.regs.pc ∧ pe'.regs.pstate = pe.regs.pstate ∧ pe'.raised = pe.raised

/-- An instruction's choice reads no general register. -/
theorem action_withX (i : Instr) (cfg : Config) (pe : Pe) (x : Vector DWord 31) :
    action i cfg (pe.withX x).regs = action i cfg pe.regs := by
  cases i <;> rfl

theorem takeException_sameFlow (pe : Pe) (x : Vector DWord 31) (l : ExcLevel) (e : BitVec 32) (w : Raised) :
    SameFlow (pe.takeException l e w) ((pe.withX x).takeException l e w) := by
  cases l <;> exact ⟨rfl, rfl, rfl⟩

section
variable {s : State} (x : Vector DWord 31) (hcur : s.cur < s.pes.length)
include hcur

theorem pe_withX : (s.withX x).pe s.cur = (s.pe s.cur).withX x :=
  pe_setPe_self s s.cur _ hcur

theorem regs_withX : (s.withX x).regs = ((s.pe s.cur).withX x).regs :=
  congrArg Pe.regs (pe_withX x hcur)

/-- An update `f` of the executing PE that sends it the same way on other general registers (with an update `g` that may
build another record) does so on the machine. -/
theorem setPe_sameFlow (f g : Pe → Pe) (h : SameFlow (f (s.pe s.cur)) (g ((s.pe s.cur).withX x))) :
    SameFlow ((s.setPe s.cur (f (s.pe s.cur))).pe s.cur)
      (((s.withX x).setPe s.cur (g ((s.withX x).pe s.cur))).pe s.cur) := by
  have hcurX : s.cur < (s.withX x).pes.length := by rwa [State.withX, setPe_pes, List.length_set]
  rwa [pe_setPe_self s _ _ hcur, pe_setPe_self _ _ _ hcurX, pe_withX x hcur]

/-- The same for one update that reads no general register. -/
theorem setPe_update_sameFlow (f : Pe → Pe) (h : SameFlow (f (s.pe s.cur)) (f ((s.pe s.cur).withX x))) :
    SameFlow ((s.setPe s.cur (f (s.pe s.cur))).pe s.cur)
      (((s.withX x).setPe s.cur (f ((s.withX x).pe s.cur))).pe s.cur) :=
  setPe_sameFlow x hcur f f h

theorem raiseUndefined_sameFlow : SameFlow (s.raiseUndefined.pe s.cur) ((s.withX x).raiseUndefined.pe s.cur) :=
  setPe_update_sameFlow x hcur
    (fun pe => pe.takeException (undefinedTarget s.cfg pe.regs) (undefinedSyndrome (Config.undefinedIL s.freeCount))
      (.undefined pe.regs.pstate.el))
    (takeException_sameFlow _ x _ _ _)

theorem trapToEl2_sameFlow (i : Instr) :
    SameFlow ((s.trapToEl2 i).pe s.cur) (((s.withX x).trapToEl2 i).pe s.cur) :=
  setPe_update_sameFlow x hcur
    (fun pe => pe.takeException .el2 (trapSyndrome i) (.systemAccessTrap pe.regs.pstate.el .el2 0x18 i))
    (takeException_sameFlow _ x _ _ _)

/-- The record that becomes pending can be another one, and the pc advances alike. -/
theorem addOp_sameFlow (op opX : TlbiOp) :
    SameFlow ((s.addOp op).pe s.cur) (((s.withX x).addOp opX).pe s.cur) :=
  setPe_sameFlow x hcur (fun pe => Pe.advance { pe with pending := insertNew op pe.pending })
    (fun pe => Pe.advance { pe with pending := insertNew opX pe.pending }) ⟨rfl, rfl, rfl⟩

/-- A choice that can be carried out can be on any general registers, and control goes the same way. -/
theorem perform_sameFlow {t : State} (i : Instr) (a : Action) (h : s.perform i a = .next t) :
    ∃ t', (s.withX x).perform i a = .next t' ∧ SameFlow (t.pe s.cur) (t'.pe s.cur) := by
  cases a with
  | undefined =>
    cases h
    exact ⟨_, rfl, raiseUndefined_sameFlow x hcur⟩
  | trap =>
    cases h
    exact ⟨_, rfl, trapToEl2_sameFlow x hcur i⟩
  | issue attr =>
    have hsec : securityState (s.withX x).cfg (s.withX x).regs = securityState s.cfg s.regs := by
      rw [regs_withX x hcur]
      rfl
    rw [State.perform] at h ⊢
    rcases issueTlbi_cases s attr i.rt with ⟨sec, hsome, hnext⟩ | ⟨-, hrefused⟩
    · rw [hnext] at h
      cases h
      exact ⟨_, by rw [State.issueTlbi, hsec, hsome], addOp_sameFlow x hcur _ _⟩
    · rw [hrefused] at h
      cases h

end

/-- Settles O24: the choice reads no general register, and carrying it out sends control the same way. -/
theorem noOperandValueStops : Obligations.NoOperandValueStops := by
  intro i s t x hcur h
  rw [exec_eq_perform] at h
  have hchoice : action i (s.withX x).cfg (s.withX x).regs = action i s.cfg s.regs := by
    rw [regs_withX x hcur]
    exact action_withX i s.cfg (s.pe s.cur) x
  obtain ⟨t', hnext, hflow⟩ := perform_sameFlow x hcur i _ h
  exact ⟨t', (exec_eq_perform i (s.withX x)).trans (hchoice ▸ hnext), hflow⟩

end Sys2Proof.Machine

/-! PROOFS. The TTL field: the granule and level it names, and what an entry of another granule or level means
(30_encoding.md R63 to R65, 40_tlbi_vale1is.md R74, R78; D10, D27, log 30). -/

namespace Sys2Proof.Machine

/-- With FEAT_TTL a value that the table has no row for says nothing of the level. -/
theorem info_of_ttlInfo_none {cfg : Config} {op : TlbiOp} (hfeat : cfg.featTTL = true)
    (h : ttlInfo cfg.featLPA2 op.ttl = none) : info cfg op = .anyLevel := by
  rw [info, if_pos hfeat, h]

/-- With FEAT_TTL a row of the table is what an entry is held to. -/
theorem info_of_ttlInfo_some {cfg : Config} {op : TlbiOp} {g : Granule} {l : Fin 4} (hfeat : cfg.featTTL = true)
    (h : ttlInfo cfg.featLPA2 op.ttl = some (g, l)) : info cfg op = .leaf g l := by
  rw [info, if_pos hfeat, h]

/-- `TTL<3:2>` of a granule (30_encoding.md R64). -/
def granuleBits : Granule → Nat
  | .g4K => 1
  | .g16K => 2
  | .g64K => 3

/-- The least level that a granule's TTL values name whether or not FEAT_LPA2 is implemented (30_encoding.md R64). -/
def leastTtlLevel : Granule → Nat
  | .g4K => 1
  | .g16K => 2
  | .g64K => 1

/-- The rows of the table that do not need FEAT_LPA2. -/
theorem ttlInfo_eq_some (lpa2 : Bool) {ttl : BitVec 4} {g : Granule} {l : Fin 4} (hg : ttl.toNat / 4 = granuleBits g)
    (hl : ttl.toNat % 4 = l.val) (hleast : leastTtlLevel g ≤ l.val) : ttlInfo lpa2 ttl = some (g, l) := by
  have hvalue : ttl.toNat = 4 * granuleBits g + l.val := by omega
  obtain ⟨k, hk⟩ := l
  cases g with
  | g4K =>
    obtain rfl | rfl | rfl : k = 1 ∨ k = 2 ∨ k = 3 := by simp only [leastTtlLevel] at hleast; omega
    all_goals simp [ttlInfo, hvalue, granuleBits]
  | g16K =>
    obtain rfl | rfl : k = 2 ∨ k = 3 := by simp only [leastTtlLevel] at hleast; omega
    all_goals simp [ttlInfo, hvalue, granuleBits]
  | g64K =>
    obtain rfl | rfl | rfl : k = 1 ∨ k = 2 ∨ k = 3 := by simp only [leastTtlLevel] at hleast; omega
    all_goals simp [ttlInfo, hvalue, granuleBits]

/-- Level 0 of the 4KB granule is a row with FEAT_LPA2 only. -/
theorem ttlInfo_g4K_zero (lpa2 : Bool) {ttl : BitVec 4} (h : ttl.toNat = 4) :
    ttlInfo lpa2 ttl = if lpa2 then some (.g4K, 0) else none := by
  simp only [ttlInfo, h]

/-- Level 1 of the 16KB granule is a row with FEAT_LPA2 only. -/
theorem ttlInfo_g16K_one (lpa2 : Bool) {ttl : BitVec 4} (h : ttl.toNat = 9) :
    ttlInfo lpa2 ttl = if lpa2 then some (.g16K, 1) else none := by
  simp only [ttlInfo, h]

/-- The values without a row: `TTL<3:2>` = 0, and the reserved level 0 of the 16KB and 64KB granules. -/
theorem ttlInfo_eq_none (lpa2 : Bool) {ttl : BitVec 4} (h : ttl.toNat < 4 ∨ ttl.toNat = 8 ∨ ttl.toNat = 12) :
    ttlInfo lpa2 ttl = none := by
  obtain hvalue | hvalue | hvalue | hvalue | hvalue | hvalue : ttl.toNat = 0 ∨ ttl.toNat = 1 ∨ ttl.toNat = 2
      ∨ ttl.toNat = 3 ∨ ttl.toNat = 8 ∨ ttl.toNat = 12 := by omega
  all_goals simp only [ttlInfo, hvalue]

/-- Settles O27: every value is in a row of the table or in none. -/
theorem ttlFieldGivesGranuleAndLevel : Obligations.TtlFieldGivesGranuleAndLevel := by
  intro cfg op hfeat
  refine ⟨fun hg => ?_, fun hg hl => ?_, fun hg hl => ?_, fun hg hl => ?_, fun hg hl => ?_, fun l hl hpos => ?_⟩
  · exact info_of_ttlInfo_none hfeat (ttlInfo_eq_none _ (by omega))
  · rw [info, if_pos hfeat, ttlInfo_g4K_zero _ (by omega)]
    cases cfg.featLPA2 <;> rfl
  · exact info_of_ttlInfo_none hfeat (ttlInfo_eq_none _ (by omega))
  · rw [info, if_pos hfeat, ttlInfo_g16K_one _ (by omega)]
    cases cfg.featLPA2 <;> rfl
  · exact info_of_ttlInfo_none hfeat (ttlInfo_eq_none _ (by omega))
  · exact ⟨fun hg => info_of_ttlInfo_some hfeat (ttlInfo_eq_some _ hg hl hpos),
      fun hg hleast => info_of_ttlInfo_some hfeat (ttlInfo_eq_some _ hg hl hleast),
      fun hg => info_of_ttlInfo_some hfeat (ttlInfo_eq_some _ hg hl hpos)⟩

theorem required_eq_false_of_levelOK {cfg : Config} {op : TlbiOp} {a : AgentId} {e : TlbEntry}
    (h : ¬levelOK cfg e op = true) : required cfg op a e = false := by
  rw [← Bool.not_eq_true, required_iff]
  rintro ⟨-, -, -, -, hlevel, -⟩
  exact h hlevel

/-- Settles O28: the level condition fails, by the granule and level named or for want of FEAT_TTL. -/
theorem incorrectTtlRequiresNothing : Obligations.IncorrectTtlRequiresNothing := by
  intro cfg op a e
  refine ⟨fun g l hfeat hinfo hwrong => ?_, fun hfeat hne => ?_⟩
  · refine required_eq_false_of_levelOK fun hlevel => ?_
    rw [levelOK, info_of_ttlInfo_some hfeat hinfo] at hlevel
    simp only [Bool.and_eq_true, beq_iff_eq] at hlevel
    obtain ⟨hgranule, hl⟩ := hlevel
    exact hwrong.elim (fun hg => hg hgranule) (fun hnl => hnl hl)
  · refine required_eq_false_of_levelOK fun hlevel => ?_
    rcases (levelOK_iff cfg e op).mp hlevel with ⟨-, hzero⟩ | ⟨htrue, -⟩
    · exact hne hzero
    · rw [hfeat] at htrue
      cases htrue

end Sys2Proof.Machine

/-! PROOFS. Where a trap control takes `TLBI VALE1IS` or its nXS variant to EL2, and with which syndrome
(60_exceptions.md R85, R86, R88, 40_tlbi_vale1is.md R82; the form of the entry and of the syndrome is PRESUMED, log 13,
log 14). -/

namespace Sys2Proof.Machine

/-! ### The syndrome of a trap -/

/-- A concatenation as a number: the upper part shifted past the lower. -/
theorem toNat_append_eq_add {m n : Nat} (x : BitVec m) (y : BitVec n) :
    (x ++ y).toNat = x.toNat * 2 ^ n + y.toNat := by
  rw [BitVec.toNat_append, ← Nat.shiftLeft_add_eq_or_of_lt y.isLt, Nat.shiftLeft_eq]

/-- The class 0x18 and the IL bit, and each field of the instruction's tuple at its place (60_exceptions.md R85). -/
theorem toNat_trapSyndrome (i : Instr) :
    (trapSyndrome i).toNat = 0x62000000 + i.fields.op0.toNat * 2 ^ 20 + i.fields.op2.toNat * 2 ^ 17
      + i.fields.op1.toNat * 2 ^ 14 + i.fields.crn.toNat * 2 ^ 10 + i.fields.rt.toNat * 2 ^ 5
      + i.fields.crm.toNat * 2 := by
  simp only [trapSyndrome, toNat_append_eq_add, BitVec.toNat_ofNat]
  omega

theorem toNat_trapSyndrome_vale1is {t : Nat} (ht : t < 32) :
    (trapSyndrome (.tlbiVale1is t)).toNat = 0x621A2006 + 32 * t := by
  simp only [toNat_trapSyndrome, Instr.fields, BitVec.ofNat_eq_ofNat, BitVec.toNat_ofNat]
  omega

theorem toNat_trapSyndrome_vale1isnxs {t : Nat} (ht : t < 32) :
    (trapSyndrome (.tlbiVale1isnxs t)).toNat = 0x621A2406 + 32 * t := by
  simp only [toNat_trapSyndrome, Instr.fields, BitVec.ofNat_eq_ofNat, BitVec.toNat_ofNat]
  omega

/-! ### The trap of each instruction -/

/-- A trap from EL1 enters EL2 with the instruction's syndrome and uses no free value. -/
theorem trapToEl2_from_el1 {s : State} (i : Instr) (hcur : s.cur < s.pes.length) (hel : s.regs.pstate.el = .el1) :
    Entered s (s.trapToEl2 i) .el2 (.systemAccessTrap .el1 .el2 0x18 i)
      ∧ ((s.trapToEl2 i).pe s.cur).regs.exc2.esr = trapSyndrome i
      ∧ (s.trapToEl2 i).freeCount = s.freeCount := by
  rw [← hel]
  exact trapToEl2_entered s i hcur

/-- Settles O15: each of the three controls makes the EL1 arm a trap, whose syndrome is the instruction's. -/
theorem vale1isTrapsToEl2 : Obligations.Vale1isTrapsToEl2 := by
  intro t s ht hcur hel htraps
  obtain ⟨hentered, hesr, hfree⟩ := trapToEl2_from_el1 (.tlbiVale1is t) hcur hel
  exact ⟨_, exec_vale1is_trap t hel htraps, hentered, hesr ▸ toNat_trapSyndrome_vale1is ht, hfree⟩

/-- Settles O16: the same for the EL1 arm of the nXS variant, under its own form of the fine-grained trap. -/
theorem vale1isnxsTrapsToEl2 : Obligations.Vale1isnxsTrapsToEl2 := by
  intro t s ht hcur hxs hel htraps
  obtain ⟨hentered, hesr, hfree⟩ := trapToEl2_from_el1 (.tlbiVale1isnxs t) hcur hel
  exact ⟨_, exec_nxs_trap t hxs hel htraps, hentered, hesr ▸ toNat_trapSyndrome_vale1isnxs ht, hfree⟩

/-! ### The fine-grained trap without FEAT_HCX -/

/-- Without FEAT_HCX only the coarse controls trap the nXS variant (40_tlbi_vale1is.md R82, difference 3). -/
theorem nxsTraps_iff_coarse {cfg : Config} {r : PeRegs} (h : cfg.featHCX = false) :
    NxsTraps cfg r ↔ CoarseTrap cfg r := by
  constructor
  · rintro (hcoarse | ⟨-, hhcx, -⟩)
    · exact hcoarse
    · rw [h] at hhcx
      cases hhcx
  · exact .inl

/-- A PE that has entered an exception is at the target's level with its pending operations as they were. -/
theorem Entered.level_and_pending {s t : State} {l : ExcLevel} {why : Raised} (h : Entered s t l why) :
    (t.pe s.cur).regs.pstate.el = l.toEL ∧ (t.pe s.cur).pending = (s.pe s.cur).pending := by
  obtain ⟨-, -, hpending, -, -, -, -, -, hpstate, -⟩ := h
  exact ⟨congrArg Pstate.el hpstate, hpending⟩

/-- Settles O19: the fine-grained trap is one of `TLBI VALE1IS`, and with no coarse trap the nXS variant runs. -/
theorem fineTrapWithoutHcxSparesNxs : Obligations.FineTrapWithoutHcxSparesNxs := by
  intro t s hcur hel hxs hhcx hfine hcoarse hsec
  have hnoTrap : ¬NxsTraps s.cfg s.regs := mt (nxsTraps_iff_coarse hhcx).mp hcoarse
  obtain ⟨hentered, -, -⟩ := trapToEl2_from_el1 (.tlbiVale1is t) hcur hel
  obtain ⟨op, s', hnext, hissued, -⟩ := issueTlbi_runs s .excludeXS t hcur (ne_el0_of_el1 hel) hsec
  exact ⟨⟨_, exec_vale1is_trap t hel (.inr hfine), hentered.level_and_pending⟩,
    s', op, (exec_nxs_el1 t hxs hel hnoTrap).trans hnext, hissued⟩

end Sys2Proof.Machine

/-! PROOFS. What an instruction reads of the machine: the configuration, its own PE, the model's free value, and of the
other PEs `SCR_EL3.EEL2` alone (40_tlbi_vale1is.md R80, 60_exceptions.md R93). -/

namespace Sys2Proof.Machine

theorem length_allEel2 (s : State) : s.allEel2.length = s.pes.length := List.length_map _

theorem getElem_allEel2 (s : State) {q : Nat} (hq : q < s.allEel2.length) :
    s.allEel2[q] = (s.pe q).regs.scr.eel2 := by
  have hlt : q < s.pes.length := length_allEel2 s ▸ hq
  simp only [State.allEel2, State.pe, List.getElem_map, List.getD_eq_getElem?_getD, List.getElem?_eq_getElem hlt,
    Option.getD_some]

/-- Two states give the executing PE the same inputs: they agree on all that an instruction reads. -/
structure SameInputs (s s2 : State) : Prop where
  cfg : s2.cfg = s.cfg
  cur : s2.cur = s.cur
  peCount : s2.pes.length = s.pes.length
  pe : s2.pe s.cur = s.pe s.cur
  freeCount : s2.freeCount = s.freeCount
  eel2 : ∀ q, q < s.pes.length → (s2.pe q).regs.scr.eel2 = (s.pe q).regs.scr.eel2

namespace SameInputs

variable {s s2 : State} (h : SameInputs s s2)
include h

theorem regs_eq : s2.regs = s.regs := by
  rw [State.regs, State.regs, h.cur, h.pe]

theorem allEel2_eq : s2.allEel2 = s.allEel2 := by
  have hlength : s2.allEel2.length = s.allEel2.length := by rw [length_allEel2, length_allEel2, h.peCount]
  refine List.ext_getElem hlength fun q hq2 hq => ?_
  rw [getElem_allEel2 s2 hq2, getElem_allEel2 s hq, h.eel2 q (length_allEel2 s ▸ hq)]

theorem tlbiOp_eq (sec : SecurityState) (attr : XsAttr) (t : Nat) : s2.tlbiOp sec attr t = s.tlbiOp sec attr t := by
  rw [State.tlbiOp, State.tlbiOp, h.cfg, h.cur, h.regs_eq, h.allEel2_eq]

/-- One update of the executing PE gives it the same in both states. -/
theorem pe_setPe_update (hcur : s.cur < s.pes.length) (f : Pe → Pe) :
    (s2.setPe s2.cur (f (s2.pe s2.cur))).pe s.cur = (s.setPe s.cur (f (s.pe s.cur))).pe s.cur := by
  rw [h.cur, pe_setPe_self s2 _ _ (h.peCount ▸ hcur), pe_setPe_self s _ _ hcur, h.pe]

theorem pe_raiseUndefined (hcur : s.cur < s.pes.length) : s2.raiseUndefined.pe s.cur = s.raiseUndefined.pe s.cur := by
  simp only [State.raiseUndefined, pe_freeCount, h.cfg, h.freeCount]
  exact h.pe_setPe_update hcur fun pe =>
    pe.takeException (undefinedTarget s.cfg pe.regs) (undefinedSyndrome (Config.undefinedIL s.freeCount))
      (.undefined pe.regs.pstate.el)

theorem pe_trapToEl2 (hcur : s.cur < s.pes.length) (i : Instr) :
    (s2.trapToEl2 i).pe s.cur = (s.trapToEl2 i).pe s.cur :=
  h.pe_setPe_update hcur fun pe =>
    pe.takeException .el2 (trapSyndrome i) (.systemAccessTrap pe.regs.pstate.el .el2 0x18 i)

theorem pe_addOp (hcur : s.cur < s.pes.length) (op : TlbiOp) : (s2.addOp op).pe s.cur = (s.addOp op).pe s.cur :=
  h.pe_setPe_update hcur fun pe => Pe.advance { pe with pending := insertNew op pe.pending }

/-- A choice that can be carried out in one state can be in the other, and leaves the executing PE the same. -/
theorem perform_pe (hcur : s.cur < s.pes.length) {t : State} (i : Instr) (a : Action)
    (hnext : s.perform i a = .next t) : ∃ t2, s2.perform i a = .next t2 ∧ t2.pe s.cur = t.pe s.cur := by
  cases a with
  | undefined =>
    cases hnext
    exact ⟨_, rfl, h.pe_raiseUndefined hcur⟩
  | trap =>
    cases hnext
    exact ⟨_, rfl, h.pe_trapToEl2 hcur i⟩
  | issue attr =>
    rw [State.perform, State.issueTlbi] at hnext ⊢
    rw [h.cfg, h.regs_eq]
    cases hsec : securityState s.cfg s.regs with
    | none =>
      rw [hsec] at hnext
      cases hnext
    | some sec =>
      rw [hsec] at hnext
      cases hnext
      exact ⟨_, rfl, by rw [h.tlbiOp_eq, h.pe_addOp hcur]⟩

end SameInputs

/-- Settles O25: the choice is made by the configuration and the PE's own registers, and carrying it out reads of the
other PEs their `EEL2` only. -/
theorem onlyRemoteEel2Matters : Obligations.OnlyRemoteEel2Matters := by
  intro i s s2 t hcur hcfg hcurEq hcount hpe hfree heel2 hexec
  have hsame : SameInputs s s2 := ⟨hcfg, hcurEq, hcount, hpe, hfree, heel2⟩
  rw [exec_eq_perform] at hexec ⊢
  rw [hcfg, hsame.regs_eq]
  exact hsame.perform_pe hcur i _ hexec

end Sys2Proof.Machine

/-! PROOFS. The last-level and ASID condition: which entries it leaves out, and that a global entry's ASID tag is
compared with nothing (40_tlbi_vale1is.md R76). -/

namespace Sys2Proof.Machine

theorem required_eq_false_of_leafAsid {cfg : Config} {op : TlbiOp} {a : AgentId} {e : TlbEntry}
    (h : ¬leafAsid e op = true) : required cfg op a e = false := by
  rw [← Bool.not_eq_true, required_iff]
  rintro ⟨-, -, hleaf, -⟩
  exact h hleaf

/-- The condition does not read the operand's ASID for a global entry. -/
theorem leafAsid_of_global {e : TlbEntry} (op : TlbiOp) (h : e.nG = false) : leafAsid e op = e.final := by
  rw [leafAsid, h, Bool.not_false, Bool.true_or, Bool.and_true]

/-- The operand's ASID is read by `LeafAsid` only. -/
theorem required_asid_congr (cfg : Config) {op : TlbiOp} (a : AgentId) {e : TlbEntry} {asid : BitVec 16}
    (h : leafAsid e { op with asid := asid } = leafAsid e op) :
    required cfg { op with asid := asid } a e = required cfg op a e := by
  unfold required
  rw [h]
  rfl

/-- Settles O29: an entry that fails the condition is not required to go, and a global one meets it under any ASID. -/
theorem leafEntriesOfTheAsidOrGlobal : Obligations.LeafEntriesOfTheAsidOrGlobal := by
  intro cfg op a e
  refine ⟨leafAsid_iff e op, fun hfinal => ?_, fun hnG hasid => ?_, fun hglobal asid => ?_⟩
  · refine required_eq_false_of_leafAsid fun hleaf => ?_
    obtain ⟨htrue, -⟩ := (leafAsid_iff e op).mp hleaf
    exact Bool.false_ne_true (hfinal.symm.trans htrue)
  · refine required_eq_false_of_leafAsid fun hleaf => ?_
    obtain ⟨-, hfalse | hequal⟩ := (leafAsid_iff e op).mp hleaf
    · exact Bool.false_ne_true (hfalse.symm.trans hnG)
    · exact hasid hequal
  · exact required_asid_congr cfg a (by rw [leafAsid_of_global _ hglobal, leafAsid_of_global _ hglobal])

end Sys2Proof.Machine

/-! PROOFS. The Undefined exception of both instructions: where it is raised, the level it is taken to, and its syndrome
(60_exceptions.md R84, R86 row 1, R87; the entry and the syndrome are PRESUMED, log 13, log 14). -/

namespace Sys2Proof.Machine

/-- From EL0 an Undefined exception is taken to EL2 where that is enabled with `HCR_EL2.TGE` 1, else to EL1. -/
theorem undefinedTarget_of_el0 {cfg : Config} {r : PeRegs} (h : r.pstate.el = .el0) :
    (EL2On cfg r ∧ r.hcr.tge = true → undefinedTarget cfg r = .el2)
      ∧ (¬(EL2On cfg r ∧ r.hcr.tge = true) → undefinedTarget cfg r = .el1) := by
  rw [← el2Enabled_iff, ← Bool.and_eq_true]
  simp only [undefinedTarget, h]
  exact ⟨fun htge => if_pos htge, fun htge => if_neg htge⟩

/-- Above EL0 an Undefined exception is taken to the current level. -/
theorem toEL_undefinedTarget {cfg : Config} {r : PeRegs} (h : r.pstate.el ≠ .el0) :
    (undefinedTarget cfg r).toEL = r.pstate.el := by
  unfold undefinedTarget
  cases hlevel : r.pstate.el with
  | el0 => exact absurd hlevel h
  | el1 => rfl
  | el2 => rfl
  | el3 => rfl

/-- The syndrome written at the target has class 0 and nothing of the instruction, whatever the free IL bit is. -/
theorem raiseUndefined_esr_fields {s : State} (hcur : s.cur < s.pes.length) :
    ((s.raiseUndefined.pe s.cur).regs.bank (undefinedTarget s.cfg s.regs)).esr.extractLsb' 26 6 = 0
      ∧ ((s.raiseUndefined.pe s.cur).regs.bank (undefinedTarget s.cfg s.regs)).esr.extractLsb' 0 25 = 0 := by
  have hesr : ((s.raiseUndefined.pe s.cur).regs.bank (undefinedTarget s.cfg s.regs)).esr
      = undefinedSyndrome (Config.undefinedIL s.freeCount) := by
    rw [State.raiseUndefined, pe_freeCount, pe_setPe_self s s.cur _ hcur, State.regs, takeException_bank]
  rw [hesr]
  exact undefinedSyndrome_fields _

/-- At EL0 both instructions raise Undefined, whatever any control register holds (60_exceptions.md R87). -/
theorem exec_el0 {s : State} (i : Instr) (h : s.regs.pstate.el = .el0) : exec i s = .next s.raiseUndefined := by
  cases i with
  | tlbiVale1is t => exact exec_vale1is_el0 t h
  | tlbiVale1isnxs t => exact exec_nxs_el0 t h

/-- Settles O13: both instructions raise Undefined at EL0, and its target there is chosen by `EL2On` and `TGE`. -/
theorem undefinedAtEl0 : Obligations.UndefinedAtEl0 := by
  intro i s hcur hel
  obtain ⟨hentered, -⟩ := raiseUndefined_entered s hcur
  rw [hel] at hentered
  obtain ⟨htoEl2, htoEl1⟩ := undefinedTarget_of_el0 (cfg := s.cfg) hel
  exact ⟨_, _, exec_el0 i hel, hentered, htoEl2, htoEl1, raiseUndefined_esr_fields hcur⟩

/-- Settles O14: without FEAT_XS the nXS variant raises Undefined before it reads its level. -/
theorem nxsUndefinedWithoutXS : Obligations.NxsUndefinedWithoutXS := by
  intro t s hcur hxs
  obtain ⟨hentered, -⟩ := raiseUndefined_entered s hcur
  exact ⟨_, _, exec_nxs_noXS t hxs, hentered, toEL_undefinedTarget, raiseUndefined_esr_fields hcur⟩

end Sys2Proof.Machine

/-! PROOFS. A return from an exception as the move after its entry (60_exceptions.md R89, R90; the entry and the return
are PRESUMED, log 13, log 16). -/

namespace Sys2Proof.Machine

/-! ### What a return does -/

/-- The registers after a return that uses the exception registers of level `l`. -/
def PeRegs.restored (r : PeRegs) (l : ExcLevel) : PeRegs := { r with pc := (r.bank l).elr, pstate := (r.bank l).spsr }

/-- A return writes no general register and no control register. -/
theorem SameControls.restored {r r' : PeRegs} (h : SameControls r r') (l : ExcLevel) : SameControls r (r'.restored l) :=
  h

theorem bank_restored (r : PeRegs) (l l' : ExcLevel) : (r.restored l).bank l' = r.bank l' := by
  cases l' <;> rfl

/-- A return at the level `l` to a level no higher restores what the registers of `l` saved. -/
theorem exceptionReturn_eq_restored {r : PeRegs} {l : ExcLevel} (hlevel : r.pstate.el = l.toEL)
    (hle : (r.bank l).spsr.el.toNat ≤ l.toEL.toNat) : r.exceptionReturn = some (r.restored l) := by
  have hreturn : r.pstate.returnLevel = some l := by
    rw [Pstate.returnLevel, hlevel]
    cases l <;> rfl
  simp only [PeRegs.exceptionReturn, hreturn, hlevel, if_pos hle, PeRegs.restored]

/-- Whether a level can be current is read from PSTATE and `SCR_EL3` (10_state.md R17). -/
theorem legalEL_congr {cfg : Config} {r r' : PeRegs} (hpstate : r'.pstate = r.pstate) (hscr : r'.scr = r.scr) :
    legalEL cfg r' = legalEL cfg r := by
  simp only [legalEL, el2Enabled, hpstate, hscr]

/-- A return keeps legal registers legal where the level it goes to can be current. -/
theorem legal_restored {cfg : Config} {r : PeRegs} {l : ExcLevel} (h : r.legal cfg = true)
    (hlevel : legalEL cfg (r.restored l) = true) : (r.restored l).legal cfg = true := by
  obtain ⟨-, -, hbank⟩ := (legal_iff _ _).mp h
  obtain ⟨-, helr⟩ := hbank l
  refine (legal_iff _ _).mpr ⟨hlevel, helr, fun l' => ?_⟩
  rw [bank_restored]
  exact hbank l'

/-- A return to legal registers is carried out by the move. -/
theorem step_exceptionReturn {s : State} {p : Nat} {r : PeRegs} {rest : List Event}
    (hev : s.events = .exceptionReturn p :: rest) (hreturn : (s.pe p).regs.exceptionReturn = some r)
    (hlegal : r.legal s.cfg = true) :
    step s = .next (State.setPe { s with events := rest } p { s.pe p with regs := r }) := by
  simp only [step, hev, State.environment, State.envReturn, pe_events, hreturn, State.setRegs, hlegal, if_true]

/-! ### What an entry leaves for the return -/

/-- The registers of the target level hold the pc and PSTATE of the instruction. -/
theorem Entered.saved {s t : State} {l : ExcLevel} {why : Raised} (h : Entered s t l why) :
    ((t.pe s.cur).regs.bank l).elr = s.regs.pc ∧ ((t.pe s.cur).regs.bank l).spsr = s.regs.pstate := by
  obtain ⟨-, -, -, -, helr, hspsr, -⟩ := h
  exact ⟨helr, hspsr⟩

/-- An Undefined exception is not taken to a lower level. -/
theorem level_le_undefinedTarget (cfg : Config) (r : PeRegs) :
    r.pstate.el.toNat ≤ (undefinedTarget cfg r).toEL.toNat := by
  by_cases hel : r.pstate.el = .el0
  · rw [hel]
    exact Nat.zero_le _
  · exact Nat.le_of_eq (congrArg EL.toNat (toEL_undefinedTarget hel).symm)

/-- An instruction does not lower the level of its PE (60_exceptions.md R92). -/
theorem exec_level_le {i : Instr} {s t : State} (hcur : s.cur < s.pes.length) (h : exec i s = .next t) :
    s.regs.pstate.el.toNat ≤ (t.pe s.cur).regs.pstate.el.toNat := by
  have ho := exec_outcome i s
  rw [h] at ho
  cases ho with
  | issue sec attr _ _ _ =>
    obtain ⟨-, -, hpstate, -⟩ := addOp_issued s (s.tlbiOp sec attr i.rt) hcur
    exact Nat.le_of_eq (congrArg (fun ps : Pstate => ps.el.toNat) hpstate.symm)
  | undefined =>
    obtain ⟨hlevel, -⟩ := (raiseUndefined_entered s hcur).1.level_and_pending
    rw [hlevel]
    exact level_le_undefinedTarget s.cfg s.regs
  | trap hel _ =>
    obtain ⟨hlevel, -⟩ := (trapToEl2_entered s i hcur).1.level_and_pending
    rw [hlevel, hel]
    decide

/-- Settles O42: the entry saved the pc and PSTATE at the level it went to, which is no lower than the instruction's, so
the return restores them; the registers are legal again because they were. -/
theorem returnUndoesEntry : Obligations.ReturnUndoesEntry := by
  intro i s t l why hinv hexec hentered
  obtain ⟨helr, hspsr⟩ := hentered.saved
  obtain ⟨hlevel, hpending⟩ := hentered.level_and_pending
  obtain ⟨hcfg, -, hcount, -⟩ := exec_sameCounts hexec
  obtain ⟨-, hkept⟩ := hentered.frame
  have hcontrols : SameControls s.regs ((t.pe s.cur).regs.restored l) := hkept.restored l
  have hcur : s.cur < t.pes.length := hcount ▸ hinv.curExists
  have hreturn : (t.pe s.cur).regs.exceptionReturn = some ((t.pe s.cur).regs.restored l) := by
    refine exceptionReturn_eq_restored hlevel ?_
    rw [hspsr, ← hlevel]
    exact exec_level_le hinv.curExists hexec
  have hlegal : ((t.pe s.cur).regs.restored l).legal t.cfg = true := by
    refine legal_restored ((hinv.exec hexec).peWf hcur).legal ?_
    obtain ⟨-, -, hscr, -⟩ := hcontrols
    obtain ⟨hcurrent, -⟩ := (legal_iff _ _).mp (hinv.peWf hinv.curExists).legal
    rw [legalEL_congr hspsr hscr, hcfg]
    exact hcurrent
  refine ⟨_, step_exceptionReturn (s := { t with events := [.exceptionReturn s.cur] }) rfl hreturn hlegal, ?_⟩
  rw [pe_setPe_self { t with events := [] } s.cur _ hcur]
  exact ⟨helr, hspsr, hcontrols, hpending⟩

end Sys2Proof.Machine
